-- ==== Sys2Proof/Syntax.lean ====
section
/-! DEFINITION. The commands of the block: one constructor per row of spec/opcode_table.json (30_encoding.md R95).
A command has no operand field: every operand comes from an operand register (R94). -/

namespace Sys2Proof

/-- The 18 commands of the opcode map (R95); R276 says they are the whole set. -/
inductive Instr where
  | dec24
  | enc24
  | hdrdec
  | hdrenc
  | avpdec
  | avpenc
  | msglen
  | msgenc
  | msgdec
  | msgget
  | msgdel
  | msgsetl
  | msggetl
  | msgseth
  | msggeth
  | msgapp
  | msgclr
  | frame
deriving DecidableEq, Repr

/-- Every command once, in the order of the opcode map (R95). -/
def Instr.all : List Instr :=
  [.dec24, .enc24, .hdrdec, .hdrenc, .avpdec, .avpenc, .msglen, .msgenc, .msgdec, .msgget, .msgdel, .msgsetl,
   .msggetl, .msgseth, .msggeth, .msgapp, .msgclr, .frame]

end Sys2Proof
end

