-- ==== Sys2Proof/Word.lean ====
section
/-! DEFINITION. The value widths of the block (00_scope.md R10, R12, R13): every value is unsigned. -/

namespace Sys2Proof

/-- `u8`: an unsigned 8-bit value, one byte (R12, R13). -/
abbrev Byte := BitVec 8

/-- `u24`: an unsigned 24-bit value (R13); the width of FR_NEED (R45). -/
abbrev U24 := BitVec 24

/-- `u32`: an unsigned 32-bit value; integer registers hold this width (R10, R13). -/
abbrev U32 := BitVec 32

/-- `Bytes`: a finite sequence of bytes, offset 0 first (R12). -/
abbrev Bytes := List Byte

end Sys2Proof
end

