-- ==== Sys2Proof/Decode.lean ====
section
/-! DEFINITION. The command word (30_encoding.md R94 to R96): the decoder, total on every 8-bit value, and the encoder. -/

namespace Sys2Proof

/-- Why a CMD value is no command. -/
inductive Reject where
  /-- one of the 238 unassigned values of R96 -/
  | unassigned (v : Byte)
deriving DecidableEq, Repr

/-- CMD[7:4], the group (R94). -/
def cmdGroup (v : Byte) : BitVec 4 := v.extractLsb' 4 4

/-- CMD[3:0], the function within the group (R94). -/
def cmdFunction (v : Byte) : BitVec 4 := v.extractLsb' 0 4

/-- The opcode map of R95, row by row. -/
def opcodeTable : List (Byte × Instr) :=
  [(0x01, .dec24), (0x02, .enc24),
   (0x10, .hdrdec), (0x11, .hdrenc),
   (0x20, .avpdec), (0x21, .avpenc)] ++
  [(0x30, .msglen), (0x31, .msgenc), (0x32, .msgdec), (0x33, .msgget), (0x34, .msgdel), (0x35, .msgsetl),
   (0x36, .msggetl), (0x37, .msgseth), (0x38, .msggeth), (0x39, .msgapp), (0x3A, .msgclr)] ++
  [(0x40, .frame)]

/-- The command a CMD value issues: the row whose opcode is the whole value (every mask of the table is 0xFF); any other value
is rejected by name (R95, R96). -/
def decodeCmd (v : Byte) : Except Reject Instr :=
  match opcodeTable.find? (fun row => row.1 == v) with
  | some row => .ok row.2
  | none => .error (.unassigned v)

/-- The group of a command (R94). -/
def groupOf : Instr → BitVec 4
  | .dec24 | .enc24 => 0x0
  | .hdrdec | .hdrenc => 0x1
  | .avpdec | .avpenc => 0x2
  | .msglen | .msgenc | .msgdec | .msgget | .msgdel | .msgsetl | .msggetl | .msgseth | .msggeth | .msgapp | .msgclr => 0x3
  | .frame => 0x4

/-- The function of a command within its group (R94, R95). -/
def functionOf : Instr → BitVec 4
  | .dec24 => 0x1
  | .enc24 => 0x2
  | .hdrdec => 0x0
  | .hdrenc => 0x1
  | .avpdec => 0x0
  | .avpenc => 0x1
  | .msglen => 0x0
  | .msgenc => 0x1
  | .msgdec => 0x2
  | .msgget => 0x3
  | .msgdel => 0x4
  | .msgsetl => 0x5
  | .msggetl => 0x6
  | .msgseth => 0x7
  | .msggeth => 0x8
  | .msgapp => 0x9
  | .msgclr => 0xA
  | .frame => 0x0

/-- The command word of a command: its group in bits 7:4 and its function in bits 3:0 (R94). -/
def encode (i : Instr) : Byte := groupOf i ++ functionOf i

/-- The 8-bit CMD value of a table word: the bits above `nbits` are 0. -/
def tableByte (nbits w : Nat) : Byte := BitVec.ofNat 8 (w % 2 ^ nbits)

/-- The command the decoder reads from a word numbered as spec/opcode_table.json numbers it. -/
def decodeTableWord (nbits w : Nat) : Option Instr :=
  match decodeCmd (tableByte nbits w) with
  | .ok i => some i
  | .error _ => none

end Sys2Proof
end

