-- ==== Sys2Proof/Config.lean ====
section
/-! DEFINITION. The implementation parameters (00_scope.md R8, R9). The spec gives their range and no value, so they are plain
data that every state carries: a statement about every state is a statement about every legal choice of them
(log entry 4). -/

namespace Sys2Proof

/-- The two parameters a model takes. `none` is the spec's "unbounded". -/
structure Params where
  /-- `P_MAX_BUF`: the most bytes A_BUF, R_BUF or FR_BUF may hold (R8). -/
  maxBuf  : Option Nat
  /-- `P_MAX_AVPS`: the most AVPs MSG.AVPS, A_LIST or R_LIST may hold (R9). -/
  maxAvps : Option Nat
deriving DecidableEq, Repr

/-- Both parameters unbounded: "a model in Lean may take it" (R8, R9). -/
def Params.unbounded : Params := ⟨none, none⟩

/-- The largest value of a 24-bit field, 2^24 − 1 = 16777215 (R8, R13). -/
abbrev maxU24 : Nat := 16777215

end Sys2Proof
end

