-- ==== Sys2Proof/Machine/Records.lean ====
section
/-! DEFINITION. The record types of 10_state.md section 2, the message of R38 and the outcomes of 60_exceptions.md R261. -/

namespace Sys2Proof

/-- A Header record (R23). MessageLength and CommandCode are held in 32 bits and carried on the wire in 24. -/
structure Header where
  version       : Byte
  messageLength : U32
  commandFlags  : Byte
  commandCode   : U32
  applicationID : U32
  hopByHopID    : U32
  endToEndID    : U32
deriving DecidableEq, Repr

/-- The zero Header (R28). -/
def Header.zero : Header := ⟨0, 0, 0, 0, 0, 0, 0⟩

/-- An AVP record (R26, R36): four stored fields; its Length is computed, never stored. -/
structure Avp where
  code     : U32
  flags    : Byte
  vendorID : U32
  data     : Bytes
deriving DecidableEq, Repr

/-- The zero AVP (R28), which is also the sentinel of MSGGET (R208). -/
def Avp.zero : Avp := ⟨0, 0, 0, []⟩

/-- A Message: one header and an AVP sequence in wire order (R38). -/
structure Message where
  hdr  : Header
  avps : List Avp
deriving DecidableEq, Repr

/-- The empty message: zero Header and no AVPs (R48, R205). -/
def Message.empty : Message := ⟨Header.zero, []⟩

/-- The outcomes of R261. The reserved codes 13 to 15 are never written, so they have no constructor. -/
inductive Code where
  | ok
  | invalidWidth
  | shortBuffer
  | shortVendorBuffer
  | payloadTruncated
  | truncatedAVP
  | emptyPayload
  | shortMessage
  | lengthMismatch
  | noMessage
  | streamClosed
  | illegalCommand
  | capacityExceeded
deriving DecidableEq, Repr

end Sys2Proof
end

