-- ==== Sys2Proof/Machine/State.lean ====
section
/-! DEFINITION. The architectural state of the block (10_state.md), the environment's pending inputs, the reasons a step can
stop, and the state after reset (R48). Everything is plain data. -/

namespace Sys2Proof.Machine

/-- Why the machine stops. No command ever stops it: every error of the spec is an outcome in STATUS.CODE (R260). -/
inductive Fault where
  /-- Raised by a host write of A_BUF or A_LIST whose value is longer than the register's capacity P_MAX_BUF or P_MAX_AVPS
  (R29); the spec gives such a write no effect. Safe: the machine stops (log entry 5). -/
  | operandOverCapacity
deriving DecidableEq, Repr

/-- Why a step has no meaning. Never raised: every command of the opcode map has its meaning. -/
inductive Refusal where
  /-- A command without a meaning, by its mnemonic; raised by a refused arm of `exec`, of which there is none. Safe. -/
  | notModelled (mnemonic : String)
deriving DecidableEq, Repr

/-- The operand registers A_* (R29): written by the host only. -/
structure OperandRegs where
  /-- A_BUF -/
  buf  : Bytes
  /-- A_U32 -/
  u32  : U32
  /-- A_HDR -/
  hdr  : Header
  /-- A_AVP -/
  avp  : Avp
  /-- A_LIST -/
  list : List Avp
deriving DecidableEq, Repr

/-- The result registers R_* (R31 to R35). -/
structure ResultRegs where
  /-- R_BUF -/
  buf   : Bytes
  /-- R_U32 -/
  u32   : U32
  /-- R_HDR -/
  hdr   : Header
  /-- R_AVP -/
  avp   : Avp
  /-- R_LIST -/
  list  : List Avp
  /-- R_FOUND, one bit -/
  found : Bool
  /-- R_TRAIL, three bits -/
  trail : BitVec 3
deriving DecidableEq, Repr

/-- STATUS by its fields (R40 to R43); the 16-bit word the host reads is `statusWord` of Flags.lean. -/
structure Status where
  /-- STATUS.CODE -/
  code   : Code
  /-- STATUS.BUSY -/
  busy   : Bool
  /-- STATUS.DEFECT, sticky -/
  defect : Bool
deriving DecidableEq, Repr

/-- FR_STATE (R45): IDLE, PREFIX, BODY. -/
inductive FrPhase where
  | idle
  | inPrefix
  | inBody
deriving DecidableEq, Repr

/-- The framer's registers (R45). -/
structure FramerRegs where
  /-- FR_STATE -/
  phase : FrPhase
  /-- FR_BUF: the frame read so far -/
  buf   : Bytes
  /-- FR_NEED: the body bytes still to be read -/
  need  : U24
deriving DecidableEq, Repr

/-- The transport's input stream as the framer meets it (R44): the bytes offered and not yet taken, the next one first, and
whether the stream has ended. It is no block state, and the signals in_valid, in_data, in_closed are read from it (Ops.lean). -/
structure InStream where
  bytes  : Bytes
  closed : Bool
deriving DecidableEq, Repr

/-- The registers a host may read (R50). -/
inductive HostReg where
  | aBuf | aU32 | aHdr | aAvp | aList
  | cmd
  | rBuf | rU32 | rHdr | rAvp | rList | rFound | rTrail
  | status
deriving DecidableEq, Repr

/-- The registers whose host write is ignored (R40, R50). -/
inductive ReadOnlyReg where
  | rBuf | rU32 | rHdr | rAvp | rList | rFound | rTrail
  | status
deriving DecidableEq, Repr

/-- One action of the host (R20, R50, R97): a `SET`, a command write `CMD v`, a write that is ignored, or a read. -/
inductive HostAction where
  | setBuf (v : Bytes)
  | setU32 (v : U32)
  | setHdr (v : Header)
  | setAvp (v : Avp)
  | setList (v : List Avp)
  | command (v : Byte)
  | setReadOnly (r : ReadOnlyReg)
  | read (r : HostReg)
deriving DecidableEq, Repr

/-- One event of a schedule (R20): whose turn it is, or an input from outside the block. -/
inductive Event where
  /-- the host takes its next action, unless it is held (R22) -/
  | hostTurn
  /-- the framer takes its step, if one of R232, R234, R235 is enabled -/
  | framerTurn
  /-- the transport offers these bytes after those it already offers (R44) -/
  | offer (bs : Bytes)
  /-- the transport closes the stream (R44) -/
  | close
  /-- the block is reset (R290) -/
  | reset
deriving DecidableEq, Repr

/-- The whole machine: the block's registers, the parameters, and the environment's inputs still to come. -/
structure State where
  /-- P_MAX_BUF and P_MAX_AVPS (R8, R9); no step changes them -/
  params  : Params
  /-- A_BUF, A_U32, A_HDR, A_AVP, A_LIST (R29) -/
  a       : OperandRegs
  /-- CMD (R30) -/
  cmd     : Byte
  /-- R_BUF, R_U32, R_HDR, R_AVP, R_LIST, R_FOUND, R_TRAIL (R31 to R35) -/
  r       : ResultRegs
  /-- MSG (R38) -/
  msg     : Message
  /-- STATUS (R40) -/
  status  : Status
  /-- FR_STATE, FR_BUF, FR_NEED (R45) -/
  fr      : FramerRegs
  /-- the input stream (R44) -/
  inp     : InStream
  /-- the host's actions still to come, the next one first (the model's own field, log entry 2) -/
  program : List HostAction
  /-- the schedule still to come, the next event first (the model's own field, log entry 1) -/
  events  : List Event
deriving DecidableEq, Repr

/-- What a command or a step answers. -/
abbrev Result := Host.Outcome State Fault Refusal

/-- The operand registers after reset (R48). -/
def OperandRegs.reset : OperandRegs := ⟨[], 0, Header.zero, Avp.zero, []⟩

/-- The result registers' reset values (R48), which R31 writes to every result register a command does not name. -/
def ResultRegs.reset : ResultRegs := ⟨[], 0, Header.zero, Avp.zero, [], false, 0⟩

/-- STATUS after reset (R48): CODE OK, BUSY 0, DEFECT 0. -/
def Status.reset : Status := ⟨.ok, false, false⟩

/-- The framer after reset and after every frame (R48, R237): IDLE, FR_BUF = [], FR_NEED = 0. -/
def FramerRegs.idle : FramerRegs := ⟨.idle, [], 0⟩

/-- The machine right after reset (R48, R290). DESIGN CHOICE for what is no block state: the parameters are unbounded (log
entry 4), the stream is open and offers nothing, and no host action and no event is pending (log entries 1, 2, 9). -/
def State.reset : State where
  params := Params.unbounded
  a := OperandRegs.reset
  cmd := 0x00
  r := ResultRegs.reset
  msg := Message.empty
  status := Status.reset
  fr := FramerRegs.idle
  inp := ⟨[], false⟩
  program := []
  events := []

end Sys2Proof.Machine
end

