-- ==== Sys2Proof/Machine/Ops.lean ====
section
/-! DEFINITION. The named operations over byte buffers and registers: slices, the big-endian read and write primitives (R12, R14,
R15), the input-stream signals (R44), the host's register reads and writes (R50), and the two ways a command ends: with its
results (R31) or with a raised error (R270). -/

namespace Sys2Proof.Machine

/-! ## Byte buffers -/

/-- `B[a:b]`: the bytes at offsets a to b − 1 (R12). -/
def slice (B : Bytes) (a b : Nat) : Bytes := (B.take b).drop a

/-- `zeros(n)` (R12). -/
def zeros (n : Nat) : Bytes := List.replicate n 0

/-- The big-endian value of a whole byte sequence, most significant byte first (R14, R62). -/
def bigEndian (B : Bytes) : Nat := B.foldl (fun acc b => acc * 256 + b.toNat) 0

/-- `MemRead(B, off, n)` (R14): the spec uses it only where off + n ≤ |B|. -/
def memRead (B : Bytes) (off n : Nat) : Nat := bigEndian (slice B off (off + n))

/-- `be(v, n)` (R15): the low n bytes of v, most significant first. -/
def be (v : Nat) : Nat → Bytes
  | 0 => []
  | n + 1 => BitVec.ofNat 8 (v / 256 ^ n) :: be v n

/-- `MemWrite(B, off, n, v)` (R15); it appears only in derivations. -/
def memWrite (B : Bytes) (off n v : Nat) : Bytes := slice B 0 off ++ be v n ++ slice B (off + n) B.length

/-- The byte at an offset (R12). -/
def byteAt (B : Bytes) (off : Nat) : Byte := B.getD off 0

/-- A 32-bit field at an offset (R90). -/
def read32 (B : Bytes) (off : Nat) : U32 := BitVec.ofNat 32 (memRead B off 4)

/-! ## How a command ends -/

/-- `raise E` (R16, R270): STATUS.CODE gets the code of E, every result register its reset value, and nothing else changes. There is
no vector, no saved state and no return (R270, R272). -/
def raise (e : Code) (s : State) : State :=
  { s with r := ResultRegs.reset, status := { s.status with code := e } }

/-- A command's success (R21, R31): the result registers and MSG as the command's rule gives them, and CODE = OK. -/
def succeed (r : ResultRegs) (m : Message) (s : State) : State :=
  { s with r := r, msg := m, status := { s.status with code := .ok } }

/-- The end of an atomic command (R21): success with results and a message store, or one `raise`. -/
def conclude (res : Except Code (ResultRegs × Message)) (s : State) : Result :=
  match res with
  | .ok (r, m) => .next (succeed r m s)
  | .error e => .next (raise e s)

/-- STATUS.DEFECT ← 1 (R43, R191). -/
def setDefect (s : State) : State := { s with status := { s.status with defect := true } }

/-- The effect of an unassigned CMD value (R96, R264). -/
def illegalCommand (s : State) : State := raise .illegalCommand s

/-! ## The input stream -/

/-- `in_valid`: a byte is offered (R44). -/
def inValid (s : State) : Bool := !s.inp.bytes.isEmpty

/-- `in_data`: the offered byte, meaningful when `in_valid` = 1 (R44). -/
def inData (s : State) : Byte := s.inp.bytes.headD 0

/-- `in_closed`: the stream has ended (R44). -/
def inClosed (s : State) : Bool := s.inp.closed

/-- The framer takes the offered byte: it is gone from the stream (R44, R67). -/
def consumeByte (s : State) : State := { s with inp := { s.inp with bytes := s.inp.bytes.tail } }

/-- The transport offers more bytes. A closed stream offers none any more (R44; log entry 6). -/
def offerBytes (bs : Bytes) (s : State) : State :=
  if s.inp.closed then s else { s with inp := { s.inp with bytes := s.inp.bytes ++ bs } }

/-- The transport closes the stream (R44). -/
def closeStream (s : State) : State := { s with inp := { s.inp with closed := true } }

/-- The buffer the transport takes after an encode (R20, R32): a read of R_BUF, without effect (log entry 16). -/
def transportBuffer (s : State) : Bytes := s.r.buf

/-! ## Reset -/

/-- Reset of the block (R290 to R292): every register of R48 gets its reset value; an unfinished frame is abandoned; the input
stream keeps the bytes it still offers; the parameters, the host's further actions and the schedule are not the block's
(log entry 8). -/
def resetBlock (s : State) : State :=
  { State.reset with params := s.params, inp := s.inp, program := s.program, events := s.events }

end Sys2Proof.Machine
end

