-- ==== Sys2Proof/Machine/Operands.lean ====
section
/-! DEFINITION. What commands compute from their operands before they write anything: the padding function (R112), the lengths of an
AVP and of a message (R37, R153, R180), the search by code (R206) and the capacity tests (R8, R9). -/

namespace Sys2Proof.Machine

/-- `pad4(L)` (R112): the zero bytes that make L a multiple of 4. -/
def pad4 (L : Nat) : Nat := (4 - L % 4) % 4

/-- The V bit of an AVP Flags byte, bit 7 (R152): the only flag any rule reads. -/
def vBit (f : Byte) : Bool := f.getLsbD 7

/-- `hdrlen(f)` (R153). -/
def hdrlen (f : Byte) : Nat := if vBit f then 12 else 8

/-- `Length(A)` (R37): an unbounded natural number. -/
def avpLength (A : Avp) : Nat := hdrlen A.flags + A.data.length

/-- `padded(A)` (R37): the bytes A occupies on the wire. -/
def avpPadded (A : Avp) : Nat := avpLength A + pad4 (avpLength A)

/-- `total_length(M)` (R180). -/
def totalLength (M : Message) : Nat := 20 + (M.avps.map avpPadded).sum

/-- `first_index(S, c)` (R206): Code alone is compared. -/
def firstIndex : List Avp → U32 → Option Nat
  | [], _ => none
  | A :: S, c => if A.code = c then some 0 else (firstIndex S c).map (· + 1)

/-- Whether a length stays within a parameter; `none` is "unbounded" (R8, R9). -/
def withinLimit (limit : Option Nat) (n : Nat) : Bool :=
  match limit with
  | none => true
  | some m => decide (n ≤ m)

/-- Whether the register a host action writes can hold the value (R29): A_BUF holds at most P_MAX_BUF bytes and A_LIST at most
P_MAX_AVPS records; every other action fits. -/
def hostWriteFits (p : Params) (act : HostAction) : Bool :=
  match act with
  | .setBuf v => withinLimit p.maxBuf v.length
  | .setList v => withinLimit p.maxAvps v.length
  | .setU32 _ | .setHdr _ | .setAvp _ | .command _ | .setReadOnly _ | .read _ => true

/-- Whether a sequence of n records is full: |S| = P_MAX_AVPS (R184, R202). -/
def listFull (limit : Option Nat) (n : Nat) : Bool := decide (limit = some n)

end Sys2Proof.Machine
end

