-- ==== Sys2Proof/Machine/IntegerCodec.lean ====
section
/-! DEFINITION. The integer codec (40_integer_codec.md): DEC24 and ENC24. -/

namespace Sys2Proof.Machine

/-- `decode24(B)` (R110): big-endian, zero-extended to 32 bits; every caller passes exactly 3 bytes. -/
def decode24 (B : Bytes) : U32 := BitVec.ofNat 32 (memRead B 0 3)

/-- `encode24(v)` (R111): the low 24 bits, most significant byte first; bits 31:24 are dropped. -/
def encode24 (v : U32) : Bytes := be (v.toNat % 2 ^ 24) 3

/-- The computation of DEC24 (R113). -/
def dec24 (B : Bytes) : Except Code U32 :=
  if B.length ≠ 3 then .error .invalidWidth else .ok (decode24 B)

/-- DEC24 (R113). -/
def execDec24 (s : State) : Result :=
  conclude ((dec24 s.a.buf).map fun v => ({ ResultRegs.reset with u32 := v }, s.msg)) s

/-- ENC24 (R114). -/
def execEnc24 (s : State) : Result :=
  conclude (.ok ({ ResultRegs.reset with buf := encode24 s.a.u32 }, s.msg)) s

end Sys2Proof.Machine
end

