-- ==== Sys2Proof/Machine/AvpCodec.lean ====
section
/-! DEFINITION. The AVP codec (42_avp_codec.md): AVPDEC and AVPENC over the wire layouts of 30_encoding.md R84 and R85. -/

namespace Sys2Proof.Machine

/-- Steps 3 and 4 of `avp_decode` (R157, R158): the declared length L against the header length h and the buffer. The bytes from
L on are not read. -/
def avpPayload (B : Bytes) (code : U32) (flags : Byte) (vid : U32) (h L : Nat) : Except Code (Avp × U32) :=
  if L < h ∨ B.length < L then .error .payloadTruncated
  else .ok (⟨code, flags, vid, slice B h L⟩, BitVec.ofNat 32 L)

/-- `avp_decode(B)` (R154 to R158), its checks in the spec's order; it returns the record and the declared Length. -/
def avpDecode (B : Bytes) : Except Code (Avp × U32) :=
  if B.length < 8 then .error .shortBuffer
  else
    let code := read32 B 0
    let flags := byteAt B 4
    let L := (decode24 (slice B 5 8)).toNat
    if vBit flags then
      if B.length < 12 then .error .shortVendorBuffer
      else avpPayload B code flags (read32 B 8) 12 L
    else avpPayload B code flags 0 8 L

/-- The AVP header as written (R162): VendorID only when V is set. -/
def avpHeader (A : Avp) : Bytes :=
  be A.code.toNat 4 ++ [A.flags] ++ encode24 (BitVec.ofNat 32 (avpLength A))
    ++ (if vBit A.flags then be A.vendorID.toNat 4 else [])

/-- The padded bytes of an AVP (R161 to R163). -/
def avpWire (A : Avp) : Bytes := avpHeader A ++ A.data ++ zeros (pad4 (avpLength A))

/-- `avp_encode(A)` (R160 to R163): the padded bytes and the unpadded Length, or EmptyPayload. -/
def avpEncode (A : Avp) : Except Code (Bytes × Nat) :=
  if A.data.length = 0 then .error .emptyPayload else .ok (avpWire A, avpLength A)

/-- AVPDEC (R159). -/
def execAvpdec (s : State) : Result :=
  conclude ((avpDecode s.a.buf).map fun p => ({ ResultRegs.reset with avp := p.1, u32 := p.2 }, s.msg)) s

/-- The capacity check of AVPENC on an encoded AVP (R164). -/
def avpencFit (limit : Option Nat) (p : Bytes × Nat) : Except Code (Bytes × Nat) :=
  if withinLimit limit p.1.length then .ok p else .error .capacityExceeded

/-- AVPENC (R164): EmptyPayload, then CapacityExceeded. -/
def execAvpenc (s : State) : Result :=
  conclude (((avpEncode s.a.avp).bind (avpencFit s.params.maxBuf)).map fun p =>
    ({ ResultRegs.reset with buf := p.1, u32 := BitVec.ofNat 32 p.2 }, s.msg)) s

end Sys2Proof.Machine
end

