-- ==== Sys2Proof/Machine/HeaderCodec.lean ====
section
/-! DEFINITION. The header codec (41_header_codec.md): HDRDEC and HDRENC over the wire layout of 30_encoding.md R81. -/

namespace Sys2Proof.Machine

/-- `header_decode(B)` (R130): only B[0:20] is read, and only the length is checked. -/
def headerDecode (B : Bytes) : Except Code Header :=
  if B.length < 20 then .error .shortBuffer
  else .ok
    { version := byteAt B 0
      messageLength := decode24 (slice B 1 4)
      commandFlags := byteAt B 4
      commandCode := decode24 (slice B 5 8)
      applicationID := read32 B 8
      hopByHopID := read32 B 12
      endToEndID := read32 B 16 }

/-- `header_encode(H)` (R133, R135): always 20 bytes; MessageLength is written as stored, modulo 2^24. -/
def headerEncode (H : Header) : Bytes :=
  [H.version] ++ encode24 H.messageLength ++ [H.commandFlags] ++ encode24 H.commandCode
    ++ be H.applicationID.toNat 4 ++ be H.hopByHopID.toNat 4 ++ be H.endToEndID.toNat 4

/-- HDRDEC (R132). -/
def execHdrdec (s : State) : Result :=
  conclude ((headerDecode s.a.buf).map fun h => ({ ResultRegs.reset with hdr := h }, s.msg)) s

/-- HDRENC (R134). -/
def execHdrenc (s : State) : Result :=
  conclude (.ok ({ ResultRegs.reset with buf := headerEncode s.a.hdr }, s.msg)) s

end Sys2Proof.Machine
end

