-- ==== Sys2Proof/Machine/MessageAssembler.lean ====
section
/-! DEFINITION. The message assembler (43_message_assembler.md): MSGLEN, MSGENC, MSGDEC and the message-store commands. -/

namespace Sys2Proof.Machine

/-- A message with its header's MessageLength replaced (R181, R192): the total modulo 2^32. -/
def withMessageLength (M : Message) (t : Nat) : Message :=
  { M with hdr := { M.hdr with messageLength := BitVec.ofNat 32 t } }

/-! ## Total length and serialisation -/

/-- MSGLEN (R181). -/
def execMsglen (s : State) : Result :=
  conclude (.ok ({ ResultRegs.reset with u32 := BitVec.ofNat 32 (totalLength s.msg) },
    withMessageLength s.msg (totalLength s.msg))) s

/-- The bytes of a message in wire order (R187): the header carrying the total, then each AVP's padded bytes. -/
def msgWire (M : Message) : Bytes :=
  headerEncode (withMessageLength M (totalLength M)).hdr ++ (M.avps.map avpWire).flatten

/-- `msg_encode(M)` (R187 to R191): EmptyPayload for any AVP with empty Data, then the length self-check, then the layout. -/
def msgEncode (M : Message) : Except Code (Bytes × Nat) :=
  if M.avps.any (fun A => A.data.isEmpty) then .error .emptyPayload
  else if totalLength M > 2 ^ 24 - 1 then .error .lengthMismatch
  else .ok (msgWire M, totalLength M)

/-- MSGENC (R192): LengthMismatch also sets the sticky DEFECT (R191). -/
def execMsgenc (s : State) : Result :=
  match msgEncode s.msg with
  | .ok (out, t) =>
    conclude (.ok ({ ResultRegs.reset with buf := out, u32 := BitVec.ofNat 32 t }, withMessageLength s.msg t)) s
  | .error .lengthMismatch => conclude (.error .lengthMismatch) (setDefect s)
  | .error e => conclude (.error e) s

/-! ## Parsing -/

/-- The AVP boundary loop (R184, R185, R186): `cur` is the cursor and `S` the AVPs decoded so far; it answers all the AVPs and the
trailing-byte count. Every pass that does not raise moves the cursor forward, so a fuel of |B| is never used up
(log entry 14). -/
def avpLoop (limit : Option Nat) (B : Bytes) : Nat → Nat → List Avp → Except Code (List Avp × Nat)
  | 0, cur, S => .ok (S, B.length - cur)
  | fuel + 1, cur, S =>
    if B.length - cur < 8 then .ok (S, B.length - cur)
    else
      let L := (decode24 (slice B (cur + 5) (cur + 8))).toNat
      let stop := cur + L + pad4 L
      if stop > B.length then .error .truncatedAVP
      else
        match avpDecode (slice B cur stop) with
        | .error e => .error e
        | .ok (A, _) =>
          if listFull limit S.length then .error .capacityExceeded
          else avpLoop limit B fuel stop (S ++ [A])

/-- `msg_decode(B)` (R182 to R186, R194): the message and the trailing-byte count. MessageLength is compared with nothing. -/
def msgDecode (limit : Option Nat) (B : Bytes) : Except Code (Message × Nat) :=
  if B.length < 28 then .error .shortMessage
  else
    match headerDecode (slice B 0 20) with
    | .error e => .error e
    | .ok H =>
      match avpLoop limit B B.length 20 [] with
      | .error e => .error e
      | .ok (S, trail) => .ok (⟨H, S⟩, trail)

/-- MSGDEC (R193): MSG is committed only on full success. -/
def execMsgdec (s : State) : Result :=
  conclude ((msgDecode s.params.maxAvps s.a.buf).map fun p =>
    ({ ResultRegs.reset with trail := BitVec.ofNat 3 p.2 }, p.1)) s

/-! ## The message store -/

/-- MSGGETH (R200). -/
def execMsggeth (s : State) : Result :=
  conclude (.ok ({ ResultRegs.reset with hdr := s.msg.hdr }, s.msg)) s

/-- MSGSETH (R201): all seven fields as given. -/
def execMsgseth (s : State) : Result :=
  conclude (.ok (ResultRegs.reset, { s.msg with hdr := s.a.hdr })) s

/-- MSGAPP (R202): the record is not validated. -/
def execMsgapp (s : State) : Result :=
  if listFull s.params.maxAvps s.msg.avps.length then conclude (.error .capacityExceeded) s
  else conclude (.ok (ResultRegs.reset, { s.msg with avps := s.msg.avps ++ [s.a.avp] })) s

/-- MSGSETL (R203). -/
def execMsgsetl (s : State) : Result :=
  conclude (.ok (ResultRegs.reset, { s.msg with avps := s.a.list })) s

/-- MSGGETL (R204). -/
def execMsggetl (s : State) : Result :=
  conclude (.ok ({ ResultRegs.reset with list := s.msg.avps }, s.msg)) s

/-- MSGCLR (R205). -/
def execMsgclr (s : State) : Result :=
  conclude (.ok (ResultRegs.reset, Message.empty)) s

/-- MSGGET (R208): the first record with the code, or the sentinel. -/
def execMsgget (s : State) : Result :=
  match firstIndex s.msg.avps s.a.u32 with
  | none => conclude (.ok ({ ResultRegs.reset with avp := Avp.zero, found := false }, s.msg)) s
  | some i => conclude (.ok ({ ResultRegs.reset with avp := s.msg.avps.getD i Avp.zero, found := true }, s.msg)) s

/-- MSGDEL (R209): the first record with the code is removed, the rest keeps its order. -/
def execMsgdel (s : State) : Result :=
  match firstIndex s.msg.avps s.a.u32 with
  | none => conclude (.ok ({ ResultRegs.reset with found := false }, s.msg)) s
  | some i =>
    conclude (.ok ({ ResultRegs.reset with found := true },
      { s.msg with avps := s.msg.avps.take i ++ s.msg.avps.drop (i + 1) })) s

end Sys2Proof.Machine
end

