-- ==== Sys2Proof/Machine/Framer.lean ====
section
/-! DEFINITION. The stream framer (44_stream_framer.md): the FRAME command and the framer agent's steps. -/

namespace Sys2Proof.Machine

/-- FRAME (R231): it starts the framer and writes neither CODE nor any result register. -/
def execFrame (s : State) : Result :=
  .next { s with fr := { phase := .inPrefix, buf := [], need := 0 }, status := { s.status with busy := true } }

/-- `finish(outcome)` (R237) with the result registers of R238: `ml` is the MessageLength if the prefix was evaluated, else 0, and
`trail` the trailing-byte count of an OK outcome, else 0. -/
def finishFrame (outcome : Code) (ml : U32) (trail : BitVec 3) (s : State) : State :=
  { s with
    status := { s.status with code := outcome, busy := false }
    r := { ResultRegs.reset with buf := s.fr.buf, u32 := ml, trail := trail }
    fr := FramerRegs.idle }

/-- The MessageLength of the frame's prefix: bytes 1 to 3 of FR_BUF (R233). -/
def frameLength (s : State) : U32 := decode24 (slice s.fr.buf 1 4)

/-- Prefix evaluation (R233): nothing but ML > 4 is checked. -/
def evaluatePrefix (s : State) : State :=
  if (frameLength s).toNat ≤ 4 then finishFrame .noMessage (frameLength s) 0 s
  else { s with fr := { s.fr with phase := .inBody, need := BitVec.ofNat 24 ((frameLength s).toNat - 4) } }

/-- Frame complete (R236): `msg_decode` of the whole frame; MSG is committed only on success. -/
def completeFrame (s : State) : State :=
  match msgDecode s.params.maxAvps s.fr.buf with
  | .ok (M, trail) => finishFrame .ok (frameLength s) (BitVec.ofNat 3 trail) { s with msg := M }
  | .error e => finishFrame e (frameLength s) 0 s

/-- FR_BUF ← FR_BUF ++ [in_data], and the byte is gone from the stream (R232, R234). -/
def takeByte (s : State) : State :=
  consumeByte { s with fr := { s.fr with buf := s.fr.buf ++ [inData s] } }

/-- R232: a prefix byte; the fourth one evaluates the prefix in the same step. -/
def prefixByte (s : State) : State :=
  if (takeByte s).fr.buf.length = 4 then evaluatePrefix (takeByte s) else takeByte s

/-- FR_NEED ← FR_NEED − 1 (R234). -/
def countBodyByte (s : State) : State := { s with fr := { s.fr with need := s.fr.need - 1 } }

/-- R234: a body byte; the last one completes the frame in the same step. -/
def bodyByte (s : State) : State :=
  if (countBodyByte (takeByte s)).fr.need = 0 then completeFrame (countBodyByte (takeByte s))
  else countBodyByte (takeByte s)

/-- R235: the stream closed with the frame incomplete. The prefix was evaluated exactly when the framer is in BODY (R238; log
entry 18). -/
def streamEnded (s : State) : State :=
  match s.fr.phase with
  | .inBody => finishFrame .streamClosed (frameLength s) 0 s
  | .inPrefix | .idle => finishFrame .streamClosed 0 0 s

/-- Whether one of R232, R234, R235 is enabled (R239, R242). -/
def framerEnabled (s : State) : Bool := s.fr.phase != .idle && (inValid s || inClosed s)

/-- One step of the framer agent: an offered byte is taken before a close acts (R242); with neither, the framer has no step and is
held with its state (R239; log entry 7). -/
def framerStep (s : State) : State :=
  match s.fr.phase with
  | .idle => s
  | .inPrefix => if inValid s then prefixByte s else if inClosed s then streamEnded s else s
  | .inBody => if inValid s then bodyByte s else if inClosed s then streamEnded s else s

end Sys2Proof.Machine
end

