-- ==== Sys2Proof/Machine/Dispatch.lean ====
section
/-! DEFINITION. The meaning of every command of the opcode map, one arm per constructor. -/

namespace Sys2Proof.Machine

def exec (i : Instr) (s : State) : Host.Outcome State Fault Refusal :=
  match i with
  | .dec24 => Sys2Proof.Machine.execDec24 s
  | .enc24 => Sys2Proof.Machine.execEnc24 s
  | .hdrdec => Sys2Proof.Machine.execHdrdec s
  | .hdrenc => Sys2Proof.Machine.execHdrenc s
  | .avpdec => Sys2Proof.Machine.execAvpdec s
  | .avpenc => Sys2Proof.Machine.execAvpenc s
  | .msglen => Sys2Proof.Machine.execMsglen s
  | .msgenc => Sys2Proof.Machine.execMsgenc s
  | .msgdec => Sys2Proof.Machine.execMsgdec s
  | .msgget => Sys2Proof.Machine.execMsgget s
  | .msgdel => Sys2Proof.Machine.execMsgdel s
  | .msgsetl => Sys2Proof.Machine.execMsgsetl s
  | .msggetl => Sys2Proof.Machine.execMsggetl s
  | .msgseth => Sys2Proof.Machine.execMsgseth s
  | .msggeth => Sys2Proof.Machine.execMsggeth s
  | .msgapp => Sys2Proof.Machine.execMsgapp s
  | .msgclr => Sys2Proof.Machine.execMsgclr s
  | .frame => Sys2Proof.Machine.execFrame s

end Sys2Proof.Machine
end

