-- ==== Sys2Proof/Machine/Flags.lean ====
section
/-! DEFINITION. The status register's word (R40, R261), the named flag bits of a header and of an AVP (R82, R86), and the host's view of
every register it may read (R50). -/

namespace Sys2Proof.Machine

/-- The number of an outcome (R261). -/
def codeNumber : Code → Nat
  | .ok => 0
  | .invalidWidth => 1
  | .shortBuffer => 2
  | .shortVendorBuffer => 3
  | .payloadTruncated => 4
  | .truncatedAVP => 5
  | .emptyPayload => 6
  | .shortMessage => 7
  | .lengthMismatch => 8
  | .noMessage => 9
  | .streamClosed => 10
  | .illegalCommand => 11
  | .capacityExceeded => 12

/-- STATUS.CODE as its four bits (R40). -/
def codeBits (c : Code) : BitVec 4 := BitVec.ofNat 4 (codeNumber c)

/-- The 16-bit STATUS word (R40): [3:0] CODE, [4] BUSY, [5] DEFECT, [15:6] read as 0. -/
def statusWord (s : State) : BitVec 16 :=
  0#10 ++ BitVec.ofBool s.status.defect ++ BitVec.ofBool s.status.busy ++ codeBits s.status.code

/-- CommandFlags bit 7, R "Request" (R24, R82). -/
def requestBit (f : Byte) : Bool := f.getLsbD 7

/-- CommandFlags bit 6, P "Proxiable" (R24, R82). -/
def proxiableBit (f : Byte) : Bool := f.getLsbD 6

/-- CommandFlags bit 5, E "Error" (R24, R82). -/
def errorBit (f : Byte) : Bool := f.getLsbD 5

/-- CommandFlags bit 4, T "Retransmitted" (R24, R82). -/
def retransmittedBit (f : Byte) : Bool := f.getLsbD 4

/-- AVP Flags bit 6, M (R86, R152). -/
def mBit (f : Byte) : Bool := f.getLsbD 6

/-- AVP Flags bit 5, P (R86, R152). -/
def pBit (f : Byte) : Bool := f.getLsbD 5

/-- What a host's read of a register gives. -/
inductive RegValue where
  | bytes (v : Bytes)
  | u32 (v : U32)
  | header (v : Header)
  | avp (v : Avp)
  | avps (v : List Avp)
  | byte (v : Byte)
  | bit (v : Bool)
  | trail (v : BitVec 3)
  | word (v : BitVec 16)
deriving DecidableEq, Repr

/-- The host's read of a register (R30, R40, R50). MSG and FR_* are not readable: they have no `HostReg`. -/
def hostRead (q : HostReg) (s : State) : RegValue :=
  match q with
  | .aBuf => .bytes s.a.buf
  | .aU32 => .u32 s.a.u32
  | .aHdr => .header s.a.hdr
  | .aAvp => .avp s.a.avp
  | .aList => .avps s.a.list
  | .cmd => .byte s.cmd
  | .rBuf => .bytes s.r.buf
  | .rU32 => .u32 s.r.u32
  | .rHdr => .header s.r.hdr
  | .rAvp => .avp s.r.avp
  | .rList => .avps s.r.list
  | .rFound => .bit s.r.found
  | .rTrail => .trail s.r.trail
  | .status => .word (statusWord s)

end Sys2Proof.Machine
end

