-- ==== Sys2Proof/Machine/Agents.lean ====
section
/-! DEFINITION. The agents around the codec unit (R20): the host's actions and its hold (R21, R22, R29, R50), the transport's and the
reset's events, and the default schedule. -/

namespace Sys2Proof.Machine

/-- A host write of CMD while BUSY = 0 (R21, R30): CMD keeps the value written, assigned or not (log entry 3), and the codec unit
executes the command in the same step; an unassigned value raises IllegalCommand (R96, R264). -/
def issueCommand (v : Byte) (s : State) : Result :=
  match decodeCmd v with
  | .ok i => exec i { s with cmd := v }
  | .error _ => .next (illegalCommand { s with cmd := v })

/-- A host write of an operand register (R29), allowed at any time (R71). -/
def writeOperand (a : OperandRegs) (s : State) : State := { s with a := a }

/-- One host action on the state whose program no longer lists it. A value longer than the register stops the machine (log entry
5); a write of a read-only register is ignored (R40, R50); a read has no effect (R67). -/
def hostAct (act : HostAction) (s : State) : Result :=
  if hostWriteFits s.params act then
    match act with
    | .setBuf v => .next (writeOperand { s.a with buf := v } s)
    | .setU32 v => .next (writeOperand { s.a with u32 := v } s)
    | .setHdr v => .next (writeOperand { s.a with hdr := v } s)
    | .setAvp v => .next (writeOperand { s.a with avp := v } s)
    | .setList v => .next (writeOperand { s.a with list := v } s)
    | .command v => issueCommand v s
    | .setReadOnly _ => .next s
    | .read _ => .next s
  else .fault .operandOverCapacity

/-- Whether the host is held: its next action is a command write while BUSY = 1 (R22). -/
def hostHeld (s : State) : Bool :=
  match s.program with
  | .command _ :: _ => s.status.busy
  | _ => false

/-- The host's turn: its next action, unless it has none or is held; then nothing happens (R22; log entry 7). -/
def hostTurn (s : State) : Result :=
  match s.program with
  | [] => .next s
  | act :: rest => if hostHeld s then .next s else hostAct act { s with program := rest }

/-- One event on the state whose schedule no longer lists it. -/
def takeEvent (e : Event) (s : State) : Result :=
  match e with
  | .hostTurn => hostTurn s
  | .framerTurn => .next (framerStep s)
  | .offer bs => .next (offerBytes bs s)
  | .close => .next (closeStream s)
  | .reset => .next (resetBlock s)

/-- With no schedule pending, the framer goes first when it has a step, and otherwise the host (DESIGN CHOICE, log entry 1). -/
def defaultTurn (s : State) : Result :=
  if framerEnabled s then .next (framerStep s) else hostTurn s

end Sys2Proof.Machine
end

