-- ==== Sys2Proof/Machine/Step.lean ====
section
/-! DEFINITION. One step of the machine: the next event of the schedule, or the default turn when none is pending. -/

namespace Sys2Proof.Machine

/-- One step (R20): the schedule, plain data in the state, says which agent moves; with no schedule the default turn. -/
def step (s : State) : Host.Outcome State Fault Refusal :=
  match s.events with
  | e :: es => takeEvent e { s with events := es }
  | [] => defaultTurn s

/-- `s` with the command word of `w` as the host's very next action and the host's turn next (log entry 9). The block fetches
nothing (R46, R74): what a fetch is elsewhere is the host's CMD write here. A frame in progress would hold that write
(R22), so the framer is put to IDLE with BUSY = 0 (log entry 10); where BUSY = 0 and the framer is IDLE already,
nothing else changes. -/
def State.withFetchWord (s : State) (nbits w : Nat) : State :=
  { s with
    program := .command (tableByte nbits w) :: s.program
    events := .hostTurn :: s.events
    status := { s.status with busy := false }
    fr := if s.status.busy then FramerRegs.idle else s.fr }

end Sys2Proof.Machine
end

