-- ==== Sys2Proof/WellFormed.lean ====
section
/-! DEFINITION. Well-formedness: of a Header (R131), of an AVP record (R151), of the parameters (R8, R9) and of a host action (R29). A
command has no operand field (R94), so every `Instr` is well-formed. -/

namespace Sys2Proof

/-- Every command is well-formed: the command word has no operand field (R94). -/
def Instr.wf : Instr → Bool
  | .dec24 | .enc24 | .hdrdec | .hdrenc | .avpdec | .avpenc | .msglen | .msgenc | .msgdec | .msgget | .msgdel | .msgsetl
  | .msggetl | .msgseth | .msggeth | .msgapp | .msgclr | .frame => true

/-- A well-formed Header (R131). -/
def Header.wf (h : Header) : Bool := decide (h.messageLength.toNat < 2 ^ 24) && decide (h.commandCode.toNat < 2 ^ 24)

/-- A well-formed AVP record (R151). -/
def Avp.wf (A : Avp) : Bool :=
  decide (1 ≤ A.data.length) && decide (Machine.avpLength A ≤ 2 ^ 24 - 1)
    && (Machine.vBit A.flags || decide (A.vendorID = 0))

/-- Legal parameters: P_MAX_BUF at least 2^24 − 1 when bounded (R8), P_MAX_AVPS at least 1 when bounded (R9). -/
def Params.wf (p : Params) : Bool :=
  (match p.maxBuf with
    | none => true
    | some n => decide (maxU24 ≤ n))
  && (match p.maxAvps with
    | none => true
    | some n => decide (1 ≤ n))

/-- A host action whose value the register it writes can hold (R29). -/
abbrev Machine.HostAction.wf (p : Params) (act : Machine.HostAction) : Bool := Machine.hostWriteFits p act

end Sys2Proof
end

