-- ==== Sys2Proof/Safety.lean ====
section
/-! DEFINITION. What claims about a run mean: the machine's invariant, the outcomes of each command, and a run of framer steps. -/

namespace Sys2Proof

open Machine

/-- The framer's registers agree with BUSY and with the prefix (R42, R45, R231 to R237): IDLE holds nothing, PREFIX holds fewer
than 4 bytes, BODY holds a prefix whose MessageLength is the bytes held plus the bytes still needed. -/
def framerOk (s : State) : Bool :=
  match s.fr.phase with
  | .idle => !s.status.busy && s.fr.buf.isEmpty && s.fr.need == 0
  | .inPrefix => s.status.busy && decide (s.fr.buf.length < 4) && s.fr.need == 0
  | .inBody =>
    s.status.busy && decide (4 ≤ s.fr.buf.length) && decide (1 ≤ s.fr.need.toNat)
      && decide (s.fr.buf.length + s.fr.need.toNat = (frameLength s).toNat)

/-- Every buffer and list register is within its capacity (R8, R9, R29, R32, R34, R38). -/
def capacityOk (s : State) : Bool :=
  withinLimit s.params.maxBuf s.a.buf.length && withinLimit s.params.maxBuf s.r.buf.length
    && withinLimit s.params.maxBuf s.fr.buf.length
    && withinLimit s.params.maxAvps s.a.list.length && withinLimit s.params.maxAvps s.r.list.length
    && withinLimit s.params.maxAvps s.msg.avps.length

/-- The machine's invariant. -/
def machineInv (s : State) : Bool := s.params.wf && framerOk s && capacityOk s

/-- The bytes of one AVP inside a message: they decode to the record and are exactly its declared Length and its padding
(R184, R87). -/
def segmentDecodes (seg : Bytes) (A : Avp) : Prop :=
  ∃ L : U32, avpDecode seg = .ok (A, L) ∧ seg.length = L.toNat + pad4 L.toNat

/-- A list of such segments, one for each record, in wire order (R88, R184). -/
def segmentsDecode (segs : List Bytes) (S : List Avp) : Prop := List.Forall₂ segmentDecodes segs S

/-- `n` steps of the machine. -/
def runSteps (n : Nat) (s : State) : Result := Sys2Proof.core.run n s

/-- The next `n` turns are the framer's, and `rest` is what is left of the schedule after them: they are scheduled, or fall to the
framer by default once no event is pending (log entry 1). -/
def framerSchedule (n : Nat) (events rest : List Event) : Prop :=
  ∃ k : Nat, k ≤ n ∧ events = List.replicate k .framerTurn ++ rest ∧ (k = n ∨ rest = [])

/-- The outcomes a command step can write to STATUS.CODE (R262). FRAME's own step writes none (R231). -/
def outcomesOf : Instr → List Code
  | .dec24 => [.ok, .invalidWidth]
  | .enc24 => [.ok]
  | .hdrdec => [.ok, .shortBuffer]
  | .hdrenc => [.ok]
  | .avpdec => [.ok, .shortBuffer, .shortVendorBuffer, .payloadTruncated]
  | .avpenc => [.ok, .emptyPayload, .capacityExceeded]
  | .msglen => [.ok]
  | .msgenc => [.ok, .emptyPayload, .lengthMismatch]
  | .msgdec => [.ok, .shortMessage, .truncatedAVP, .shortBuffer, .shortVendorBuffer, .payloadTruncated, .capacityExceeded]
  | .msgget | .msgdel | .msgsetl | .msggetl | .msgseth | .msggeth | .msgclr => [.ok]
  | .msgapp => [.ok, .capacityExceeded]
  | .frame => []

/-- The outcomes of a frame (R262). -/
def frameOutcomes : List Code :=
  [.ok, .noMessage, .streamClosed, .shortMessage, .truncatedAVP, .shortBuffer, .shortVendorBuffer, .payloadTruncated,
   .capacityExceeded]

end Sys2Proof
end

