-- ==== Sys2Proof/Certificates/Slice0/Obligations.lean ====
section
/-! DEFINITION. The statements about the machine. Each docstring names the rules or sections of the spec it formalises; a clause that
rests on a decision D<n> of 92_eei_decisions.md or on a log entry of the model says so. A statement that gives the whole
next state as `{ s with … }` is its own frame: every field not named keeps its value. A statement about `exec` for every state also speaks
of states with BUSY = 1, where the host can issue no command (log entry 15). -/

open Sys2Proof Sys2Proof.Machine

/-! ## Byte buffers -/

/-- The buffer primitives (R14, R15): the lowest offset is the most significant byte, a read of n bytes is below 256^n, a write replaces
exactly n bytes, and what was written is read back modulo 256^n. -/
def Obligations.BufferPrimitivesAreBigEndian : Prop :=
  (∀ (B : Bytes) (off n : Nat), off + n ≤ B.length →
    memRead B off n = ((List.range n).map (fun i => (B.getD (off + i) 0).toNat * 256 ^ (n - 1 - i))).sum ∧
    memRead B off n < 256 ^ n) ∧
  (∀ v n : Nat, be v n = (List.range n).map (fun i => BitVec.ofNat 8 (v / 256 ^ (n - 1 - i) % 256))) ∧
  (∀ (B : Bytes) (off n v : Nat), off + n ≤ B.length →
    memWrite B off n v = B.take off ++ be v n ++ B.drop (off + n) ∧
    memRead (memWrite B off n v) off n = v % 256 ^ n)

/-! ## Integer codec -/

/-- DEC24 (40_integer_codec.md sections 1 and 2): three bytes decode big-endian, zero-extended; any other length is InvalidWidth, by the
spec's decision D9. -/
def Obligations.Dec24DecodesThreeBytes : Prop :=
  decodeCmd 0x01 = .ok .dec24 ∧
  (∀ (s : State) (x y z : Byte), s.a.buf = [x, y, z] →
    exec .dec24 s = .next { s with
      r := { ResultRegs.reset with u32 := 0#8 ++ (x ++ y ++ z) }
      status := { s.status with code := .ok } }) ∧
  (∀ s : State, s.a.buf.length ≠ 3 →
    exec .dec24 s = .next { s with r := ResultRegs.reset, status := { s.status with code := .invalidWidth } })

/-- ENC24 (R114): the low 24 bits of A_U32, most significant byte first, whatever the top byte is.
That a result register the rule does not name takes its reset value is the spec's decision D13. -/
def Obligations.Enc24TruncatesToLow24Bits : Prop :=
  decodeCmd 0x02 = .ok .enc24 ∧
  ∀ s : State,
    exec .enc24 s = .next { s with
      r := { ResultRegs.reset with
        buf := [s.a.u32.extractLsb' 16 8, s.a.u32.extractLsb' 8 8, s.a.u32.extractLsb' 0 8] }
      status := { s.status with code := .ok } }

/-- The integer codec's round trips (40_integer_codec.md section 3): exact on 3 bytes, modulo 2^24 on values. -/
def Obligations.Integer24RoundTrip : Prop :=
  (∀ B : Bytes, B.length = 3 → encode24 (decode24 B) = B) ∧
  (∀ v : U32, (decode24 (encode24 v)).toNat = v.toNat % 2 ^ 24)

/-- The padding function (R112): its formula, its range 0 to 3, and L + pad4 L the least multiple of 4 that is at least L. -/
def Obligations.Pad4IsLeastPadding : Prop :=
  ∀ L : Nat, pad4 L = (4 - L % 4) % 4 ∧ pad4 L ≤ 3 ∧ (L + pad4 L) % 4 = 0 ∧ ∀ m : Nat, L ≤ m → m % 4 = 0 → L + pad4 L ≤ m

/-! ## Header codec -/

/-- HDRDEC (R132): every field from its offset of the 20-byte layout, bytes from offset 20 on ignored; a shorter buffer is ShortBuffer.
That a result register the rule does not name takes its reset value is the spec's decision D13. -/
def Obligations.HdrdecReadsFixedLayout : Prop :=
  decodeCmd 0x10 = .ok .hdrdec ∧
  (∀ (s : State) (b0 b1 b2 b3 b4 b5 b6 b7 b8 b9 b10 b11 b12 b13 b14 b15 b16 b17 b18 b19 : Byte) (rest : Bytes),
    s.a.buf = [b0, b1, b2, b3, b4, b5, b6, b7, b8, b9, b10, b11, b12, b13, b14, b15, b16, b17, b18, b19] ++ rest →
    exec .hdrdec s = .next { s with
      r := { ResultRegs.reset with
        hdr :=
          { version := b0
            messageLength := 0#8 ++ (b1 ++ b2 ++ b3)
            commandFlags := b4
            commandCode := 0#8 ++ (b5 ++ b6 ++ b7)
            applicationID := b8 ++ b9 ++ b10 ++ b11
            hopByHopID := b12 ++ b13 ++ b14 ++ b15
            endToEndID := b16 ++ b17 ++ b18 ++ b19 } }
      status := { s.status with code := .ok } }) ∧
  (∀ s : State, s.a.buf.length < 20 →
    exec .hdrdec s = .next { s with r := ResultRegs.reset, status := { s.status with code := .shortBuffer } })

/-- HDRENC (R134): the 20 bytes of the layout; MessageLength and CommandCode lose bits 31:24.
That a result register the rule does not name takes its reset value is the spec's decision D13. -/
def Obligations.HdrencWritesFixedLayout : Prop :=
  decodeCmd 0x11 = .ok .hdrenc ∧
  ∀ (s : State) (h : Header), s.a.hdr = h →
    exec .hdrenc s = .next { s with
      r := { ResultRegs.reset with
        buf :=
          [h.version,
           h.messageLength.extractLsb' 16 8, h.messageLength.extractLsb' 8 8, h.messageLength.extractLsb' 0 8,
           h.commandFlags,
           h.commandCode.extractLsb' 16 8, h.commandCode.extractLsb' 8 8, h.commandCode.extractLsb' 0 8,
           h.applicationID.extractLsb' 24 8, h.applicationID.extractLsb' 16 8,
           h.applicationID.extractLsb' 8 8, h.applicationID.extractLsb' 0 8,
           h.hopByHopID.extractLsb' 24 8, h.hopByHopID.extractLsb' 16 8,
           h.hopByHopID.extractLsb' 8 8, h.hopByHopID.extractLsb' 0 8,
           h.endToEndID.extractLsb' 24 8, h.endToEndID.extractLsb' 16 8,
           h.endToEndID.extractLsb' 8 8, h.endToEndID.extractLsb' 0 8] }
      status := { s.status with code := .ok } }

/-- Header round trips (41_header_codec.md section 3): any Header comes back with its two 24-bit fields modulo 2^24, so a well-formed one
comes back unchanged, and any 20-byte prefix comes back from its decode. -/
def Obligations.HeaderRoundTrip : Prop :=
  (∀ h : Header, headerDecode (headerEncode h) = .ok { h with
    messageLength := BitVec.ofNat 32 (h.messageLength.toNat % 2 ^ 24)
    commandCode := BitVec.ofNat 32 (h.commandCode.toNat % 2 ^ 24) }) ∧
  (∀ h : Header, h.wf = true → headerDecode (headerEncode h) = .ok h) ∧
  (∀ B : Bytes, 20 ≤ B.length → ∃ h, headerDecode B = .ok h ∧ h.wf = true ∧ headerEncode h = B.take 20)

/-- The 8-bit field before a 24-bit field makes a 32-bit big-endian word with it (20_memory.md section 2), in an encoded header and in an
encoded AVP. -/
def Obligations.MixedWidthWords : Prop :=
  (∀ h : Header,
    memRead (headerEncode h) 0 4 = h.version.toNat * 2 ^ 24 + h.messageLength.toNat % 2 ^ 24 ∧
    memRead (headerEncode h) 4 4 = h.commandFlags.toNat * 2 ^ 24 + h.commandCode.toNat % 2 ^ 24) ∧
  (∀ A : Avp, memRead (avpWire A) 4 4 = A.flags.toNat * 2 ^ 24 + avpLength A % 2 ^ 24)

/-! ## AVP codec -/

/-- AVPDEC (R159): ShortBuffer, then ShortVendorBuffer, then PayloadTruncated, and otherwise the record and its declared Length; the
bytes from Length on are not read. The VendorID of a record with V clear is 0, by the spec's decision D7. -/
def Obligations.AvpdecChecksThenDecodes : Prop :=
  decodeCmd 0x20 = .ok .avpdec ∧
  (∀ s : State, s.a.buf.length < 8 →
    exec .avpdec s = .next { s with r := ResultRegs.reset, status := { s.status with code := .shortBuffer } }) ∧
  (∀ (s : State) (c0 c1 c2 c3 f l0 l1 l2 : Byte) (rest : Bytes),
    s.a.buf = [c0, c1, c2, c3, f, l0, l1, l2] ++ rest → f.getLsbD 7 = true → rest.length < 4 →
    exec .avpdec s = .next { s with r := ResultRegs.reset, status := { s.status with code := .shortVendorBuffer } }) ∧
  (∀ (s : State) (c0 c1 c2 c3 f l0 l1 l2 : Byte) (rest : Bytes),
    s.a.buf = [c0, c1, c2, c3, f, l0, l1, l2] ++ rest → f.getLsbD 7 = false →
    if 8 ≤ (l0 ++ l1 ++ l2).toNat ∧ (l0 ++ l1 ++ l2).toNat ≤ 8 + rest.length then
      exec .avpdec s = .next { s with
        r := { ResultRegs.reset with
          avp := ⟨c0 ++ c1 ++ c2 ++ c3, f, 0, rest.take ((l0 ++ l1 ++ l2).toNat - 8)⟩
          u32 := 0#8 ++ (l0 ++ l1 ++ l2) }
        status := { s.status with code := .ok } }
    else
      exec .avpdec s = .next { s with r := ResultRegs.reset, status := { s.status with code := .payloadTruncated } }) ∧
  (∀ (s : State) (c0 c1 c2 c3 f l0 l1 l2 v0 v1 v2 v3 : Byte) (rest : Bytes),
    s.a.buf = [c0, c1, c2, c3, f, l0, l1, l2, v0, v1, v2, v3] ++ rest → f.getLsbD 7 = true →
    if 12 ≤ (l0 ++ l1 ++ l2).toNat ∧ (l0 ++ l1 ++ l2).toNat ≤ 12 + rest.length then
      exec .avpdec s = .next { s with
        r := { ResultRegs.reset with
          avp := ⟨c0 ++ c1 ++ c2 ++ c3, f, v0 ++ v1 ++ v2 ++ v3, rest.take ((l0 ++ l1 ++ l2).toNat - 12)⟩
          u32 := 0#8 ++ (l0 ++ l1 ++ l2) }
        status := { s.status with code := .ok } }
    else
      exec .avpdec s = .next { s with r := ResultRegs.reset, status := { s.status with code := .payloadTruncated } })

/-- The bytes AVPENC writes, spelled out (42_avp_codec.md section 3). -/
def Sys2Proof.expectedAvpBytes (A : Avp) (L : Nat) : Bytes :=
  [A.code.extractLsb' 24 8, A.code.extractLsb' 16 8, A.code.extractLsb' 8 8, A.code.extractLsb' 0 8, A.flags,
   (BitVec.ofNat 24 L).extractLsb' 16 8, (BitVec.ofNat 24 L).extractLsb' 8 8, (BitVec.ofNat 24 L).extractLsb' 0 8]
  ++ (if A.flags.getLsbD 7 then
        [A.vendorID.extractLsb' 24 8, A.vendorID.extractLsb' 16 8, A.vendorID.extractLsb' 8 8, A.vendorID.extractLsb' 0 8]
      else [])
  ++ A.data ++ List.replicate ((4 - L % 4) % 4) 0

/-- AVPENC (42_avp_codec.md section 3): EmptyPayload, then CapacityExceeded (decision D24), and otherwise the padded bytes and the unpadded
Length; a Length of 2^24 or more is truncated in its field without error. -/
def Obligations.AvpencWritesPaddedBytes : Prop :=
  decodeCmd 0x21 = .ok .avpenc ∧
  ∀ (s : State) (A : Avp) (L : Nat), s.a.avp = A → L = (if A.flags.getLsbD 7 then 12 else 8) + A.data.length →
    (A.data = [] →
      exec .avpenc s = .next { s with r := ResultRegs.reset, status := { s.status with code := .emptyPayload } }) ∧
    (A.data ≠ [] → withinLimit s.params.maxBuf (L + (4 - L % 4) % 4) = false →
      exec .avpenc s = .next { s with r := ResultRegs.reset, status := { s.status with code := .capacityExceeded } }) ∧
    (A.data ≠ [] → withinLimit s.params.maxBuf (L + (4 - L % 4) % 4) = true →
      exec .avpenc s = .next { s with
        r := { ResultRegs.reset with buf := expectedAvpBytes A L, u32 := BitVec.ofNat 32 L }
        status := { s.status with code := .ok } })

/-- The padding law (42_avp_codec.md section 4): what avp_encode accepts it encodes to a multiple of 4 bytes, 0 to 3 above the Length, and
the only error is EmptyPayload. -/
def Obligations.AvpPaddingLaw : Prop :=
  ∀ A : Avp,
    (A.data = [] → avpEncode A = .error .emptyPayload) ∧
    (A.data ≠ [] → ∃ out : Bytes, avpEncode A = .ok (out, avpLength A) ∧
      out.length % 4 = 0 ∧ avpLength A ≤ out.length ∧ out.length ≤ avpLength A + 3)

/-- The AVP round trip (42_avp_codec.md section 4): a well-formed record encodes, and its bytes, with anything after them, decode to the
record and its Length: the padding is stripped. -/
def Obligations.AvpRoundTrip : Prop :=
  ∀ A : Avp, A.wf = true → ∃ (out : Bytes) (L : U32),
    avpEncode A = .ok (out, avpLength A) ∧ L.toNat = avpLength A ∧
    ∀ rest : Bytes, avpDecode (out ++ rest) = .ok (A, L)

/-- Edge cases of the AVP codec: a declared Length equal to the header length decodes to empty Data (42_avp_codec.md section 4; decision
D7 for the VendorID 0 with V clear); with V clear the VendorID does not affect the bytes (10_state.md section 2, decision D7).
That a result register the rule does not name takes its reset value is the spec's decision D13 (R31). -/
def Obligations.AvpEmptyDataAndVendorEdges : Prop :=
  (∀ (s : State) (c0 c1 c2 c3 f : Byte) (rest : Bytes), f.getLsbD 7 = false →
    s.a.buf = [c0, c1, c2, c3, f, 0, 0, 8] ++ rest →
    exec .avpdec s = .next { s with
      r := { ResultRegs.reset with avp := ⟨c0 ++ c1 ++ c2 ++ c3, f, 0, []⟩, u32 := 8 }
      status := { s.status with code := .ok } }) ∧
  (∀ (s : State) (c0 c1 c2 c3 f v0 v1 v2 v3 : Byte) (rest : Bytes), f.getLsbD 7 = true →
    s.a.buf = [c0, c1, c2, c3, f, 0, 0, 12, v0, v1, v2, v3] ++ rest →
    exec .avpdec s = .next { s with
      r := { ResultRegs.reset with avp := ⟨c0 ++ c1 ++ c2 ++ c3, f, v0 ++ v1 ++ v2 ++ v3, []⟩, u32 := 12 }
      status := { s.status with code := .ok } }) ∧
  (∀ A : Avp, A.flags.getLsbD 7 = false → ∀ v : U32, avpEncode { A with vendorID := v } = avpEncode A)

/-! ## Message assembler -/

/-- The total length (R180): 20 plus every AVP's padded length; an AVP with empty Data counts its header length. -/
def Obligations.TotalLengthSumsPaddedAvps : Prop :=
  (∀ h : Header, totalLength ⟨h, []⟩ = 20) ∧
  (∀ (h : Header) (A : Avp) (S : List Avp),
    totalLength ⟨h, A :: S⟩ = totalLength ⟨h, S⟩ + (avpLength A + pad4 (avpLength A))) ∧
  (∀ (h : Header) (A : Avp), A.data = [] → totalLength ⟨h, [A]⟩ = 20 + (if A.flags.getLsbD 7 then 12 else 8))

/-- MSGLEN (43_message_assembler.md section 1): R_U32 and, by the spec's decision D11, MSG.HDR.MessageLength get the total modulo 2^32. -/
def Obligations.MsglenStoresTotal : Prop :=
  decodeCmd 0x30 = .ok .msglen ∧
  ∀ s : State,
    exec .msglen s = .next { s with
      msg := { s.msg with hdr := { s.msg.hdr with messageLength := BitVec.ofNat 32 (totalLength s.msg) } }
      r := { ResultRegs.reset with u32 := BitVec.ofNat 32 (totalLength s.msg) }
      status := { s.status with code := .ok } }

/-- MSGENC (R192): EmptyPayload for any AVP with empty Data; then LengthMismatch with DEFECT for a total above 2^24 − 1; otherwise the header
carrying the total and the AVPs in order, and the total in R_U32 and in MSG.HDR.MessageLength. -/
def Obligations.MsgencThreeOutcomes : Prop :=
  decodeCmd 0x31 = .ok .msgenc ∧
  ∀ s : State,
    ((∃ A ∈ s.msg.avps, A.data = []) →
      exec .msgenc s = .next { s with r := ResultRegs.reset, status := { s.status with code := .emptyPayload } }) ∧
    ((∀ A ∈ s.msg.avps, A.data ≠ []) → 2 ^ 24 - 1 < totalLength s.msg →
      exec .msgenc s = .next { s with
        r := ResultRegs.reset
        status := { s.status with code := .lengthMismatch, defect := true } }) ∧
    ((∀ A ∈ s.msg.avps, A.data ≠ []) → totalLength s.msg ≤ 2 ^ 24 - 1 →
      exec .msgenc s = .next { s with
        msg := { s.msg with hdr := { s.msg.hdr with messageLength := BitVec.ofNat 32 (totalLength s.msg) } }
        r := { ResultRegs.reset with
          buf := headerEncode { s.msg.hdr with messageLength := BitVec.ofNat 32 (totalLength s.msg) }
            ++ (s.msg.avps.map (fun A => expectedAvpBytes A (avpLength A))).flatten
          u32 := BitVec.ofNat 32 (totalLength s.msg) }
        status := { s.status with code := .ok } })

/-- Length correctness (43_message_assembler.md section 5): whenever MSGENC succeeds, |R_BUF| = R_U32 = the total, the output's own
MessageLength field says the same, and it is a multiple of 4 (20_memory.md section 3). -/
def Obligations.MsgencLengthIsCorrect : Prop :=
  ∀ s t : State, exec .msgenc s = .next t → t.status.code = .ok →
    t.r.buf.length = totalLength s.msg ∧ t.r.u32.toNat = totalLength s.msg ∧
    t.msg.hdr.messageLength = t.r.u32 ∧ totalLength t.msg = totalLength s.msg ∧
    (decode24 (slice t.r.buf 1 4)).toNat = t.r.buf.length ∧ t.r.buf.length % 4 = 0

/-- A buffer below 28 bytes is ShortMessage (R182), so MSGDEC on it leaves MSG as it was (R193).
That a result register the rule does not name takes its reset value is the spec's decision D13. -/
def Obligations.MsgdecRejectsShortBuffer : Prop :=
  (∀ (limit : Option Nat) (B : Bytes), B.length < 28 → msgDecode limit B = .error .shortMessage) ∧
  (∀ s : State, s.a.buf.length < 28 →
    exec .msgdec s = .next { s with r := ResultRegs.reset, status := { s.status with code := .shortMessage } })

/-- MSGDEC (R193): what msg_decode answers is committed as a whole, or nothing is. -/
def Obligations.MsgdecCommitsOnlyOnSuccess : Prop :=
  decodeCmd 0x32 = .ok .msgdec ∧
  (∀ (s : State) (M : Message) (trail : Nat), msgDecode s.params.maxAvps s.a.buf = .ok (M, trail) →
    exec .msgdec s = .next { s with
      msg := M
      r := { ResultRegs.reset with trail := BitVec.ofNat 3 trail }
      status := { s.status with code := .ok } }) ∧
  (∀ (s : State) (e : Code), msgDecode s.params.maxAvps s.a.buf = .error e →
    exec .msgdec s = .next { s with r := ResultRegs.reset, status := { s.status with code := e } })

/-- msg_decode succeeds exactly on a 20-byte header followed by AVPs that each fill their declared Length and its padding, followed by
fewer than 8 bytes, and answers those AVPs and the number of bytes left (43_message_assembler.md section 3; the capacity
clause is decision D24, the trailing count decision D16). -/
def Obligations.MsgDecodeFindsExactBoundaries : Prop :=
  ∀ (limit : Option Nat) (B : Bytes) (M : Message) (trail : Nat),
    msgDecode limit B = .ok (M, trail) ↔
      28 ≤ B.length ∧ headerDecode (B.take 20) = .ok M.hdr ∧ withinLimit limit M.avps.length = true ∧ trail < 8 ∧
      ∃ (segs : List Bytes) (tail : Bytes),
        B.drop 20 = segs.flatten ++ tail ∧ segmentsDecode segs M.avps ∧ tail.length = trail

/-- The first failing AVP decides the outcome (43_message_assembler.md section 3, 60_exceptions.md section 2): after well-decoded AVPs, the
next one is TruncatedAVP if its padded end is beyond the buffer, else its own decoder's error (decision D15), else
CapacityExceeded if the sequence is full (decision D24). -/
def Obligations.MsgDecodeReportsFirstFailure : Prop :=
  ∀ (limit : Option Nat) (head bad : Bytes) (segs : List Bytes) (S : List Avp) (L : Nat),
    head.length = 20 → segmentsDecode segs S → withinLimit limit S.length = true → 8 ≤ bad.length →
    L = (decode24 (slice bad 5 8)).toNat →
    (bad.length < L + pad4 L →
      msgDecode limit (head ++ segs.flatten ++ bad) = .error .truncatedAVP) ∧
    (∀ e : Code, L + pad4 L ≤ bad.length → avpDecode (bad.take (L + pad4 L)) = .error e →
      msgDecode limit (head ++ segs.flatten ++ bad) = .error e) ∧
    (∀ p : Avp × U32, L + pad4 L ≤ bad.length → avpDecode (bad.take (L + pad4 L)) = .ok p → limit = some S.length →
      msgDecode limit (head ++ segs.flatten ++ bad) = .error .capacityExceeded)

/-- Which error a too small declared Length gives inside a message (43_message_assembler.md section 3, decision D15), for the first AVP
of a buffer. -/
def Obligations.MsgDecodeSmallLengthErrors : Prop :=
  ∀ (limit : Option Nat) (head : Bytes) (c0 c1 c2 c3 f l0 l1 l2 : Byte) (rest : Bytes) (L : Nat),
    head.length = 20 → L = (l0 ++ l1 ++ l2).toNat →
    (L ≤ 4 →
      msgDecode limit (head ++ [c0, c1, c2, c3, f, l0, l1, l2] ++ rest) = .error .shortBuffer) ∧
    (5 ≤ L → L ≤ 7 → f.getLsbD 7 = false →
      msgDecode limit (head ++ [c0, c1, c2, c3, f, l0, l1, l2] ++ rest) = .error .payloadTruncated) ∧
    (5 ≤ L → L ≤ 8 → f.getLsbD 7 = true →
      msgDecode limit (head ++ [c0, c1, c2, c3, f, l0, l1, l2] ++ rest) = .error .shortVendorBuffer) ∧
    (9 ≤ L → L ≤ 11 → f.getLsbD 7 = true → 4 ≤ rest.length →
      msgDecode limit (head ++ [c0, c1, c2, c3, f, l0, l1, l2] ++ rest) = .error .payloadTruncated)

/-- msg_decode compares MessageLength with nothing (43_message_assembler.md section 3, decision D14): changing its three bytes changes
neither the outcome, nor the AVPs, nor the trailing count. -/
def Obligations.MsgDecodeIgnoresMessageLength : Prop :=
  ∀ (limit : Option Nat) (v m1 m2 m3 n1 n2 n3 : Byte) (rest : Bytes),
    (msgDecode limit ([v, m1, m2, m3] ++ rest)).map (fun p => (p.1.avps, p.2)) =
      (msgDecode limit ([v, n1, n2, n3] ++ rest)).map (fun p => (p.1.avps, p.2))

/-- MSGENC, a host copy of R_BUF to A_BUF, and MSGDEC restore the message (43_message_assembler.md section 5), for at least one AVP, every
AVP well-formed, and a total below 2^24. The spec's sentence leaves out that CommandCode must fit 24 bits, which its own R189
truncates; the premise is added here. -/
def Obligations.MsgencThenMsgdecRestores : Prop :=
  ∀ s : State, s.msg.avps ≠ [] → (∀ A ∈ s.msg.avps, A.wf = true) → totalLength s.msg < 2 ^ 24 →
    s.msg.hdr.commandCode.toNat < 2 ^ 24 → withinLimit s.params.maxAvps s.msg.avps.length = true →
    ∃ t u : State, exec .msgenc s = .next t ∧
      exec .msgdec { t with a := { t.a with buf := t.r.buf } } = .next u ∧
      u.status.code = .ok ∧ u.r.trail = 0 ∧ u.msg.avps = s.msg.avps ∧
      u.msg.hdr = { s.msg.hdr with messageLength := BitVec.ofNat 32 (totalLength s.msg) }

/-! ## Message-store commands -/

/-- MSGGETH (43_message_assembler.md section 4, decision D19): R_HDR gets MSG.HDR as last stored. -/
def Obligations.MsggethReadsHeader : Prop :=
  decodeCmd 0x38 = .ok .msggeth ∧
  ∀ s : State,
    exec .msggeth s = .next { s with
      r := { ResultRegs.reset with hdr := s.msg.hdr }
      status := { s.status with code := .ok } }

/-- MSGSETH (R201): all seven fields as given; the AVPs stay.
That a result register the rule does not name takes its reset value is the spec's decision D13. -/
def Obligations.MsgsethStoresHeader : Prop :=
  decodeCmd 0x37 = .ok .msgseth ∧
  ∀ s : State,
    exec .msgseth s = .next { s with
      msg := ⟨s.a.hdr, s.msg.avps⟩
      r := ResultRegs.reset
      status := { s.status with code := .ok } }

/-- MSGAPP (43_message_assembler.md section 4, decisions D24 and D41): any record is appended, unless the store is full.
That a result register the rule does not name takes its reset value is the spec's decision D13 (R31). -/
def Obligations.MsgappAppendsUnlessFull : Prop :=
  decodeCmd 0x39 = .ok .msgapp ∧
  ∀ s : State,
    (s.params.maxAvps ≠ some s.msg.avps.length →
      exec .msgapp s = .next { s with
        msg := ⟨s.msg.hdr, s.msg.avps ++ [s.a.avp]⟩
        r := ResultRegs.reset
        status := { s.status with code := .ok } }) ∧
    (s.params.maxAvps = some s.msg.avps.length →
      exec .msgapp s = .next { s with r := ResultRegs.reset, status := { s.status with code := .capacityExceeded } })

/-- MSGSETL (R203): MSG.AVPS becomes a copy of A_LIST, which a later host write of A_LIST does not change; the header stays.
That a result register the rule does not name takes its reset value is the spec's decision D13. -/
def Obligations.MsgsetlReplacesList : Prop :=
  decodeCmd 0x35 = .ok .msgsetl ∧
  (∀ s : State,
    exec .msgsetl s = .next { s with
      msg := ⟨s.msg.hdr, s.a.list⟩
      r := ResultRegs.reset
      status := { s.status with code := .ok } }) ∧
  (∀ (s t u : State) (later : List Avp), exec .msgsetl s = .next t → hostAct (.setList later) t = .next u →
    u.msg.avps = s.a.list)

/-- MSGGETL (R204): R_LIST is a snapshot of MSG.AVPS.
That a result register the rule does not name takes its reset value is the spec's decision D13. -/
def Obligations.MsggetlSnapshotsList : Prop :=
  decodeCmd 0x36 = .ok .msggetl ∧
  ∀ s : State,
    exec .msggetl s = .next { s with
      r := { ResultRegs.reset with list := s.msg.avps }
      status := { s.status with code := .ok } }

/-- MSGCLR (43_message_assembler.md section 4, decisions D19 and D25): the empty message.
That a result register the rule does not name takes its reset value is the spec's decision D13 (R31). -/
def Obligations.MsgclrEmptiesMessage : Prop :=
  decodeCmd 0x3A = .ok .msgclr ∧
  ∀ s : State,
    exec .msgclr s = .next { s with
      msg := ⟨⟨0, 0, 0, 0, 0, 0, 0⟩, []⟩
      r := ResultRegs.reset
      status := { s.status with code := .ok } }

/-- first_index (R206): the least index whose Code is the one looked for, and none exactly when no record has it. -/
def Obligations.FirstIndexIsLeastMatch : Prop :=
  ∀ (S : List Avp) (c : U32),
    (firstIndex S c = none ↔ ∀ A ∈ S, A.code ≠ c) ∧
    (∀ i : Nat, firstIndex S c = some i ↔
      ∃ A, S[i]? = some A ∧ A.code = c ∧ ∀ (j : Nat) (A' : Avp), j < i → S[j]? = some A' → A'.code ≠ c)

/-- MSGGET (43_message_assembler.md section 4): the first record with the code; without one, by the spec's decision D17, the zero AVP with
R_FOUND = 0 and CODE = OK. -/
def Obligations.MsggetFindsFirstMatch : Prop :=
  decodeCmd 0x33 = .ok .msgget ∧
  (∀ (s : State) (before after : List Avp) (A : Avp),
    s.msg.avps = before ++ A :: after → A.code = s.a.u32 → (∀ X ∈ before, X.code ≠ s.a.u32) →
    exec .msgget s = .next { s with
      r := { ResultRegs.reset with avp := A, found := true }
      status := { s.status with code := .ok } }) ∧
  (∀ s : State, (∀ X ∈ s.msg.avps, X.code ≠ s.a.u32) →
    exec .msgget s = .next { s with
      r := { ResultRegs.reset with avp := ⟨0, 0, 0, []⟩, found := false }
      status := { s.status with code := .ok } })

/-- MSGDEL (43_message_assembler.md section 4): the first record with the code goes, the rest keeps its order; without one nothing goes.
R_FOUND reports which, by the spec's decision D18. -/
def Obligations.MsgdelRemovesFirstMatch : Prop :=
  decodeCmd 0x34 = .ok .msgdel ∧
  (∀ (s : State) (before after : List Avp) (A : Avp),
    s.msg.avps = before ++ A :: after → A.code = s.a.u32 → (∀ X ∈ before, X.code ≠ s.a.u32) →
    exec .msgdel s = .next { s with
      msg := ⟨s.msg.hdr, before ++ after⟩
      r := { ResultRegs.reset with found := true }
      status := { s.status with code := .ok } }) ∧
  (∀ s : State, (∀ X ∈ s.msg.avps, X.code ≠ s.a.u32) →
    exec .msgdel s = .next { s with
      r := { ResultRegs.reset with found := false }
      status := { s.status with code := .ok } })

/-! ## Stream framer -/

/-- FRAME's own step (44_stream_framer.md section 1, decision D20): it starts the framer and writes neither CODE nor a result register. -/
def Obligations.FrameStartsFramer : Prop :=
  decodeCmd 0x40 = .ok .frame ∧
  ∀ s : State,
    exec .frame s = .next { s with
      fr := { phase := .inPrefix, buf := [], need := 0 }
      status := { s.status with busy := true } }

/-- A prefix byte (44_stream_framer.md section 2): the first three are stored; the fourth gives ML from bytes 1 to 3, big-endian, and ends the
frame as NoMessage for ML ≤ 4 (decisions D20, D42) or starts the body with ML − 4 bytes to come (decision D23). -/
def Obligations.FramerTakesPrefixByte : Prop :=
  (∀ (s : State) (b : Byte) (rest : Bytes), s.fr.phase = .inPrefix → s.inp.bytes = b :: rest → s.fr.buf.length < 3 →
    framerStep s = { s with
      fr := { s.fr with buf := s.fr.buf ++ [b] }
      inp := { s.inp with bytes := rest } }) ∧
  (∀ (s : State) (p0 p1 p2 b : Byte) (rest : Bytes),
    s.fr.phase = .inPrefix → s.inp.bytes = b :: rest → s.fr.buf = [p0, p1, p2] →
    framerStep s =
      if (p1 ++ p2 ++ b).toNat ≤ 4 then
        { s with
          status := { s.status with code := .noMessage, busy := false }
          r := { ResultRegs.reset with buf := [p0, p1, p2, b], u32 := 0#8 ++ (p1 ++ p2 ++ b) }
          fr := { phase := .idle, buf := [], need := 0 }
          inp := { s.inp with bytes := rest } }
      else
        { s with
          fr := { phase := .inBody, buf := [p0, p1, p2, b], need := (p1 ++ p2 ++ b) - 4 }
          inp := { s.inp with bytes := rest } })

/-- A body byte (R234): stored and counted; the last one completes the frame in the same step (R236), MSG committed only where msg_decode
succeeds. The result registers at the end are those of decisions D20 and D42. -/
def Obligations.FramerTakesBodyByte : Prop :=
  (∀ (s : State) (b : Byte) (rest : Bytes), s.fr.phase = .inBody → s.inp.bytes = b :: rest → s.fr.need ≠ 1 →
    framerStep s = { s with
      fr := { s.fr with buf := s.fr.buf ++ [b], need := s.fr.need - 1 }
      inp := { s.inp with bytes := rest } }) ∧
  (∀ (s : State) (b : Byte) (rest : Bytes), s.fr.phase = .inBody → s.inp.bytes = b :: rest → s.fr.need = 1 →
    framerStep s =
      match msgDecode s.params.maxAvps (s.fr.buf ++ [b]) with
      | .ok (M, trail) =>
        { s with
          msg := M
          status := { s.status with code := .ok, busy := false }
          r := { ResultRegs.reset with
            buf := s.fr.buf ++ [b]
            u32 := decode24 (slice (s.fr.buf ++ [b]) 1 4)
            trail := BitVec.ofNat 3 trail }
          fr := { phase := .idle, buf := [], need := 0 }
          inp := { s.inp with bytes := rest } }
      | .error e =>
        { s with
          status := { s.status with code := e, busy := false }
          r := { ResultRegs.reset with
            buf := s.fr.buf ++ [b]
            u32 := decode24 (slice (s.fr.buf ++ [b]) 1 4) }
          fr := { phase := .idle, buf := [], need := 0 }
          inp := { s.inp with bytes := rest } })

/-- Without an offered byte (44_stream_framer.md section 2): a closed stream ends the frame as StreamClosed with the bytes taken so far in
R_BUF (decisions D21, D42), and R_U32 is ML only from BODY on (log entry 18); an open one leaves the framer without a step, and an
idle framer has no step at all. That a framer step without a rule answers the same state is log entry 7. -/
def Obligations.FramerWithoutOfferedByte : Prop :=
  (∀ s : State, s.fr.phase ≠ .idle → s.inp.bytes = [] → s.inp.closed = true →
    framerStep s = { s with
      status := { s.status with code := .streamClosed, busy := false }
      r := { ResultRegs.reset with
        buf := s.fr.buf
        u32 := if s.fr.phase = .inBody then decode24 (slice s.fr.buf 1 4) else 0 }
      fr := { phase := .idle, buf := [], need := 0 } }) ∧
  (∀ s : State, s.inp.bytes = [] → s.inp.closed = false → framerEnabled s = false ∧ framerStep s = s) ∧
  (∀ s : State, s.fr.phase = .idle → framerEnabled s = false ∧ framerStep s = s)

/-- An offered byte is taken before a close acts (44_stream_framer.md section 3, decision D21): while a byte is offered, the framer's step
does not depend on `in_closed`, and it takes exactly that byte when a frame is in progress. -/
def Obligations.FramerTakesByteBeforeClose : Prop :=
  ∀ (s : State) (b : Byte) (rest : Bytes) (c : Bool), s.inp.bytes = b :: rest →
    framerStep { s with inp := { s.inp with closed := c } } =
      { framerStep s with inp := { (framerStep s).inp with closed := c } } ∧
    (s.fr.phase ≠ .idle → (framerStep s).inp = { s.inp with bytes := rest })

/-- The framer reads no operand register (20_memory.md section 6) and no other agent's inputs: writing them before its step or after it is
the same. -/
def Obligations.FramerIgnoresOperandsAndHost : Prop :=
  ∀ (s : State) (a : OperandRegs) (c : Byte) (program : List HostAction) (events : List Event),
    framerStep { s with a := a, cmd := c, program := program, events := events } =
      { framerStep s with a := a, cmd := c, program := program, events := events }

/-- A whole frame (44_stream_framer.md sections 2 and 3): from the state FRAME leaves, with the frame offered and the next turns the
framer's, it takes exactly one step a byte, consumes exactly the frame, and ends with msg_decode's outcome on it, or as NoMessage
after the four prefix bytes (decisions D20, D22, D42). Each turn is a scheduled one, or falls to the framer by default once no event
is pending (log entry 1). -/
def Obligations.FrameReceivesWholeMessage : Prop :=
  (∀ (s : State) (frame rest : Bytes) (es : List Event), framerSchedule frame.length s.events es → s.status.busy = true →
    s.fr = { phase := .inPrefix, buf := [], need := 0 } → s.inp.bytes = frame ++ rest → 5 ≤ frame.length →
    (decode24 (slice frame 1 4)).toNat = frame.length →
    runSteps frame.length s = .next
      (match msgDecode s.params.maxAvps frame with
       | .ok (M, trail) =>
         { s with
           msg := M
           status := { s.status with code := .ok, busy := false }
           r := { ResultRegs.reset with
             buf := frame, u32 := BitVec.ofNat 32 frame.length, trail := BitVec.ofNat 3 trail }
           fr := { phase := .idle, buf := [], need := 0 }
           inp := { s.inp with bytes := rest }
           events := es }
       | .error e =>
         { s with
           status := { s.status with code := e, busy := false }
           r := { ResultRegs.reset with buf := frame, u32 := BitVec.ofNat 32 frame.length }
           fr := { phase := .idle, buf := [], need := 0 }
           inp := { s.inp with bytes := rest }
           events := es })) ∧
  (∀ (s : State) (frame rest : Bytes) (es : List Event), framerSchedule 4 s.events es → s.status.busy = true →
    s.fr = { phase := .inPrefix, buf := [], need := 0 } → s.inp.bytes = frame ++ rest → frame.length = 4 →
    (decode24 (slice frame 1 4)).toNat ≤ 4 →
    runSteps 4 s = .next { s with
      status := { s.status with code := .noMessage, busy := false }
      r := { ResultRegs.reset with buf := frame, u32 := decode24 (slice frame 1 4) }
      fr := { phase := .idle, buf := [], need := 0 }
      inp := { s.inp with bytes := rest }
      events := es })

/-- A stream that closes inside a frame (44_stream_framer.md sections 2 and 3, decisions D21, D42): one framer step for each byte offered
before the close and one more, MSG unchanged, the partial frame in R_BUF, R_U32 by phase (log entry 18). Each turn is a scheduled
one, or falls to the framer by default once no event is pending (log entry 1). -/
def Obligations.FrameEndsWhenStreamCloses : Prop :=
  ∀ (s : State) (part : Bytes) (es : List Event), framerSchedule (part.length + 1) s.events es → s.status.busy = true →
    s.fr = { phase := .inPrefix, buf := [], need := 0 } → s.inp = { bytes := part, closed := true } →
    (part.length < 4 ∨ part.length < (decode24 (slice part 1 4)).toNat) →
    runSteps (part.length + 1) s = .next { s with
      status := { s.status with code := .streamClosed, busy := false }
      r := { ResultRegs.reset with
        buf := part
        u32 := if part.length < 4 then 0 else decode24 (slice part 1 4) }
      fr := { phase := .idle, buf := [], need := 0 }
      inp := { bytes := [], closed := true }
      events := es }

/-- A message that MSGENC encodes and the transport offers is received by FRAME unchanged (44_stream_framer.md section 3), under the
premises of MsgencThenMsgdecRestores: FRAME's step and one framer step a byte leave MSG, R_BUF, R_U32 and R_TRAIL as the rule says
(R_U32 and the reset of the other results by decision D42). The run has no event pending, so that the host's FRAME and then the
framer's steps come by the default order (log entry 1). -/
def Obligations.FrameRestoresEncodedMessage : Prop :=
  ∀ (s0 s : State) (rest : Bytes), s0.msg.avps ≠ [] → (∀ A ∈ s0.msg.avps, A.wf = true) → totalLength s0.msg < 2 ^ 24 →
    s0.msg.hdr.commandCode.toNat < 2 ^ 24 → withinLimit s.params.maxAvps s0.msg.avps.length = true →
    s.events = [] → s.program = [.command 0x40] → s.status.busy = false → s.fr = FramerRegs.idle →
    ∃ t0 : State, exec .msgenc s0 = .next t0 ∧
      (s.inp.bytes = t0.r.buf ++ rest →
        ∃ t : State, runSteps (t0.r.buf.length + 1) s = .next t ∧
          t.status.code = .ok ∧ t.status.busy = false ∧ t.msg = t0.msg ∧ t.msg.avps = s0.msg.avps ∧
          t.r = { ResultRegs.reset with buf := t0.r.buf, u32 := t0.r.u32 } ∧ t.inp.bytes = rest)

/-! ## The step and the host -/

/-- A host write of an assigned CMD value with BUSY = 0 runs that command in the same step (10_state.md section 1), on the host's turn, or by
default when no event is pending and the framer has no step (log entry 1); withFetchWord makes it the very next step (log entries
9 and 10). -/
def Obligations.StepRunsIssuedCommand : Prop :=
  (∀ (s : State) (v : Byte) (i : Instr) (rest : List HostAction) (es : List Event), decodeCmd v = .ok i →
    s.program = .command v :: rest → s.status.busy = false → s.events = .hostTurn :: es →
    step s = exec i { s with cmd := v, program := rest, events := es }) ∧
  (∀ (s : State) (v : Byte) (i : Instr) (rest : List HostAction), decodeCmd v = .ok i →
    s.program = .command v :: rest → s.status.busy = false → s.events = [] → framerEnabled s = false →
    step s = exec i { s with cmd := v, program := rest }) ∧
  (∀ (s : State) (i : Instr),
    step (s.withFetchWord 8 (encode i).toNat) = exec i { s with
      cmd := encode i
      status := { s.status with busy := false }
      fr := if s.status.busy then FramerRegs.idle else s.fr })

/-- While BUSY = 1 a command write has no step (10_state.md section 1, decision D20): it stays pending. That the held host's turn answers
the same state, without the event that gave it, is log entry 7. With no event pending and no framer step, the turn falls to the host
by default (log entry 1), and the whole machine is held. -/
def Obligations.CommandHeldWhileBusy : Prop :=
  (∀ (s : State) (v : Byte) (rest : List HostAction) (es : List Event),
    s.program = .command v :: rest → s.status.busy = true → s.events = .hostTurn :: es →
    step s = .next { s with events := es }) ∧
  (∀ (s : State) (v : Byte) (rest : List HostAction),
    s.program = .command v :: rest → s.status.busy = true → s.events = [] → framerEnabled s = false →
    step s = .next s)

/-- Every value outside the opcode map is unassigned, 238 in all, and a step of the host that writes one while BUSY = 0 raises
IllegalCommand and changes nothing but CODE, the result registers and CMD (30_encoding.md section 5, 60_exceptions.md section 1,
decision D34): on the host's turn, or by default when no event is pending and the framer has no step (log entry 1). CMD keeps the
value written (log entry 3). -/
def Obligations.UnassignedCommandIsIllegal : Prop :=
  ((List.range 256).filter (fun n => decodeTableWord 8 n == none)).length = 238 ∧
  (∀ v : Byte, (∀ i : Instr, encode i ≠ v) → decodeCmd v = .error (.unassigned v)) ∧
  (∀ (s : State) (v : Byte), (∀ i : Instr, encode i ≠ v) →
    issueCommand v s = .next { s with
      cmd := v
      r := ResultRegs.reset
      status := { s.status with code := .illegalCommand } }) ∧
  (∀ (s : State) (v : Byte) (rest : List HostAction) (es : List Event), (∀ i : Instr, encode i ≠ v) →
    s.program = .command v :: rest → s.status.busy = false →
    (s.events = .hostTurn :: es ∨ s.events = [] ∧ es = [] ∧ framerEnabled s = false) →
    step s = .next { s with
      cmd := v
      r := ResultRegs.reset
      status := { s.status with code := .illegalCommand }
      program := rest
      events := es })

/-- Host writes of the operand registers at any time, also while BUSY = 1 (10_state.md sections 3 and 10, 20_memory.md section 6, decision
D40): a step on the host's turn performs its next action other than a CMD write, whatever BUSY is, or by default when no event is
pending and the framer has no step (log entry 1). The action changes the named register and nothing else. A value the register
cannot hold stops the machine (log entry 5). A write of a read-only register and a read are actions without effect (log entry 19). -/
def Obligations.HostWritesOperandRegisters : Prop :=
  (∀ (s : State) (act : HostAction) (rest : List HostAction) (es : List Event), (∀ v : Byte, act ≠ .command v) →
    s.program = act :: rest → (s.events = .hostTurn :: es ∨ s.events = [] ∧ es = [] ∧ framerEnabled s = false) →
    step s = hostAct act { s with program := rest, events := es }) ∧
  (∀ s : State,
    (∀ v : Bytes, withinLimit s.params.maxBuf v.length = true →
      hostAct (.setBuf v) s = .next { s with a := { s.a with buf := v } }) ∧
    (∀ v : Bytes, withinLimit s.params.maxBuf v.length = false → hostAct (.setBuf v) s = .fault .operandOverCapacity) ∧
    (∀ v : U32, hostAct (.setU32 v) s = .next { s with a := { s.a with u32 := v } }) ∧
    (∀ v : Header, hostAct (.setHdr v) s = .next { s with a := { s.a with hdr := v } }) ∧
    (∀ v : Avp, hostAct (.setAvp v) s = .next { s with a := { s.a with avp := v } }) ∧
    (∀ v : List Avp, withinLimit s.params.maxAvps v.length = true →
      hostAct (.setList v) s = .next { s with a := { s.a with list := v } }) ∧
    (∀ v : List Avp, withinLimit s.params.maxAvps v.length = false → hostAct (.setList v) s = .fault .operandOverCapacity) ∧
    (∀ q : ReadOnlyReg, hostAct (.setReadOnly q) s = .next s) ∧
    (∀ q : HostReg, hostAct (.read q) s = .next s))

/-- The STATUS word (10_state.md section 7, decisions D4, D5): CODE, BUSY and DEFECT in their bits, the rest 0, and its value as 95 writes it. -/
def Obligations.StatusWordLayout : Prop :=
  ∀ s : State,
    (statusWord s).extractLsb' 0 4 = BitVec.ofNat 4 (codeNumber s.status.code) ∧
    (statusWord s).getLsbD 4 = s.status.busy ∧ (statusWord s).getLsbD 5 = s.status.defect ∧
    (statusWord s).extractLsb' 6 10 = 0 ∧
    (statusWord s).toNat = codeNumber s.status.code + 16 * s.status.busy.toNat + 32 * s.status.defect.toNat ∧
    hostRead .status s = .word (statusWord s)

/-- The command words (30_encoding.md section 5, decision D3): a value decodes to a command exactly when it is that command's word; the words
below are the table's. -/
def Obligations.CommandWordsAgree : Prop :=
  (∀ (v : Byte) (i : Instr), decodeCmd v = .ok i ↔ encode i = v) ∧
  decodeCmd 0b00000001 = .ok .dec24 ∧ decodeCmd 0b00010001 = .ok .hdrenc ∧ decodeCmd 0b00100000 = .ok .avpdec ∧
  decodeCmd 0b00110010 = .ok .msgdec ∧ decodeCmd 0b00111010 = .ok .msgclr ∧ decodeCmd 0b01000000 = .ok .frame

/-! ## Reset -/

/-- Every register after reset (10_state.md section 10, decision D25). -/
def Obligations.ResetValues : Prop :=
  State.reset.a = ⟨[], 0, ⟨0, 0, 0, 0, 0, 0, 0⟩, ⟨0, 0, 0, []⟩, []⟩ ∧
  State.reset.r = ⟨[], 0, ⟨0, 0, 0, 0, 0, 0, 0⟩, ⟨0, 0, 0, []⟩, [], false, 0⟩ ∧
  State.reset.msg = ⟨⟨0, 0, 0, 0, 0, 0, 0⟩, []⟩ ∧
  State.reset.cmd = 0x00 ∧ statusWord State.reset = 0x0000 ∧ State.reset.fr = ⟨.idle, [], 0⟩

/-- A reset (70_reset_and_hazards.md section 1, decision D25), also during a frame: every register of the block at its reset value, DEFECT
cleared, and the stream exactly as it was. That the parameters, the host's actions and the schedule stay is log entry 8. -/
def Obligations.ResetKeepsStreamOnly : Prop :=
  ∀ (s : State) (es : List Event), s.events = .reset :: es →
    step s = .next { State.reset with params := s.params, inp := s.inp, program := s.program, events := es }

/-- The invariant holds at reset. -/
def Obligations.ResetMeetsInvariant : Prop := machineInv State.reset = true

/-! ## The whole machine -/

/-- Every step keeps the invariant: the framer's registers agree with BUSY and with the prefix read so far, and every buffer and list is
within its capacity (10_state.md sections 3, 4, 6, 8; 00_scope.md section 3). -/
def Obligations.StepKeepsInvariant : Prop :=
  ∀ s t : State, machineInv s = true → step s = .next t → machineInv t = true

/-- Every command completes in every state, and a command other than FRAME leaves the operand registers, CMD, BUSY, the framer, the input
stream, the parameters and the other agents' pending work as they were (10_state.md sections 3 and 7); FRAME leaves all but the
framer's registers and BUSY. That a command has its effect also in a state with BUSY = 1, where the host can issue none (R21, R22),
is log entry 15. -/
def Obligations.EveryCommandCompletesInItsFrame : Prop :=
  (∀ (i : Instr) (s : State), i ≠ .frame → ∃ t : State, exec i s = .next t ∧
    t.a = s.a ∧ t.cmd = s.cmd ∧ t.status.busy = s.status.busy ∧ t.fr = s.fr ∧ t.inp = s.inp ∧ t.params = s.params ∧
    t.program = s.program ∧ t.events = s.events ∧
    (i ∈ [.dec24, .enc24, .hdrdec, .hdrenc, .avpdec, .avpenc, .msgget, .msggetl, .msggeth] → t.msg = s.msg) ∧
    (i ∈ [.msglen, .msgenc, .msgseth] → t.msg.avps = s.msg.avps) ∧
    (i ∈ [.msgdel, .msgsetl, .msgapp] → t.msg.hdr = s.msg.hdr)) ∧
  (∀ s : State, ∃ t : State, exec .frame s = .next t ∧
    t = { s with fr := t.fr, status := { s.status with busy := true } })

/-- A failed command commits nothing (60_exceptions.md section 3, decisions D12, D13): STATUS.CODE, the reset result registers, and DEFECT on
LengthMismatch are all that changes. -/
def Obligations.FailedCommandCommitsNothing : Prop :=
  ∀ (i : Instr) (s t : State), i ≠ .frame → exec i s = .next t → t.status.code ≠ .ok →
    t = { s with
      r := ResultRegs.reset
      status := { s.status with
        code := t.status.code
        defect := s.status.defect || (t.status.code == .lengthMismatch) } }

/-- The outcomes of 60_exceptions.md section 1 are all there are: a command's step writes one of its own, and a framer step that ends a frame
writes one of a frame's. -/
def Obligations.OutcomesAreTheListedOnes : Prop :=
  (∀ (i : Instr) (s t : State), i ≠ .frame → exec i s = .next t → t.status.code ∈ outcomesOf i) ∧
  (∀ s : State, s.status.busy = true → (framerStep s).status.busy = false → (framerStep s).status.code ∈ frameOutcomes) ∧
  (∀ s : State, (framerStep s).status.busy = s.status.busy → s.status.busy = true →
    (framerStep s).status = s.status ∧ (framerStep s).r = s.r ∧ (framerStep s).msg = s.msg)

/-- No command depends on a previous outcome, and every command but FRAME overwrites every result register (10_state.md sections 4 and 10,
decisions D5, D13): other previous results and another previous CODE give the very same next state. -/
def Obligations.CommandsIgnorePreviousResults : Prop :=
  ∀ (i : Instr) (s : State) (previous : ResultRegs) (c : Code), i ≠ .frame →
    exec i { s with r := previous, status := { s.status with code := c } } = exec i s

/-- DEFECT is sticky (10_state.md section 7, 70_reset_and_hazards.md section 1, decision D10): a step sets it only where it runs a MSGENC
that the host has pending, with BUSY = 0, and that ends in LengthMismatch, and such a MSGENC does set it; a step clears it only
where it is a reset. -/
def Obligations.DefectIsSticky : Prop :=
  (∀ (i : Instr) (s t : State), exec i s = .next t →
    t.status.defect = (s.status.defect || (i == .msgenc && t.status.code == .lengthMismatch))) ∧
  (∀ s t : State, step s = .next t → s.status.defect = false → t.status.defect = true →
    t.status.code = .lengthMismatch ∧ s.status.busy = false ∧
    ∃ (rest : List HostAction) (es : List Event), s.program = .command (encode .msgenc) :: rest ∧
      (s.events = .hostTurn :: es ∨ s.events = [] ∧ es = []) ∧
      exec .msgenc { s with cmd := encode .msgenc, program := rest, events := es } = .next t) ∧
  (∀ s t : State, step s = .next t → s.status.defect = true →
    t.status.defect = true ∨ ∃ es : List Event, s.events = .reset :: es)

/-- What writes MSG.HDR.MessageLength (70_reset_and_hazards.md section 3): each command's new value, and for the framer the decoded wire value
at a frame that ends OK and no other. -/
def Obligations.MessageLengthWriters : Prop :=
  (∀ (i : Instr) (s t : State), exec i s = .next t →
    t.msg.hdr.messageLength =
      match i with
      | .msgclr => 0
      | .msgseth => s.a.hdr.messageLength
      | .msglen => BitVec.ofNat 32 (totalLength s.msg)
      | .msgenc => if t.status.code = .ok then BitVec.ofNat 32 (totalLength s.msg) else s.msg.hdr.messageLength
      | .msgdec => if t.status.code = .ok then decode24 (slice s.a.buf 1 4) else s.msg.hdr.messageLength
      | _ => s.msg.hdr.messageLength) ∧
  (∀ s : State, s.status.busy = true →
    (framerStep s).msg.hdr.messageLength =
      if (framerStep s).status.busy = false ∧ (framerStep s).status.code = .ok then
        decode24 (slice (framerStep s).r.buf 1 4)
      else s.msg.hdr.messageLength)

/-- What the other events of a schedule do (10_state.md sections 1 and 8, 44_stream_framer.md section 2): a framer's turn is its step, an
offer adds its bytes after those already offered, and a close ends the stream and keeps them. A closed stream offers nothing more
(log entry 6). With no event pending, an enabled framer takes its step (log entry 1). -/
def Obligations.EventsTakeEffect : Prop :=
  (∀ (s : State) (es : List Event), s.events = .framerTurn :: es → step s = .next (framerStep { s with events := es })) ∧
  (∀ s : State, s.events = [] → framerEnabled s = true → step s = .next (framerStep s)) ∧
  (∀ (s : State) (bs : Bytes) (es : List Event), s.events = .offer bs :: es → s.inp.closed = false →
    step s = .next { s with inp := { bytes := s.inp.bytes ++ bs, closed := false }, events := es }) ∧
  (∀ (s : State) (bs : Bytes) (es : List Event), s.events = .offer bs :: es → s.inp.closed = true →
    step s = .next { s with events := es }) ∧
  (∀ (s : State) (es : List Event), s.events = .close :: es →
    step s = .next { s with inp := { bytes := s.inp.bytes, closed := true }, events := es })
end

