-- ==== Sys2Proof/Laws/Bytes.lean ====
section
/-! SUPPORT. The byte-buffer primitives: lengths, what a slice of a concatenation is, and the 24-bit and 32-bit fields read from and
written to literal bytes. -/

namespace Sys2Proof.Machine

@[simp] theorem slice_length (B : Bytes) (a b : Nat) : (slice B a b).length = min b B.length - a := by
  simp [slice]

theorem slice_zero (B : Bytes) (b : Nat) : slice B 0 b = B.take b := by simp [slice]

/-- A slice inside the first part of a concatenation. -/
theorem slice_append_left (X Y : Bytes) {a b : Nat} (h : b ≤ X.length) : slice (X ++ Y) a b = slice X a b := by
  simp [slice, List.take_append_of_le_length h]

/-- A slice inside the second part of a concatenation. -/
theorem slice_append_right (X Y : Bytes) (a b : Nat) :
    slice (X ++ Y) (X.length + a) (X.length + b) = slice Y a b := by
  simp [slice, List.take_append, List.drop_append]

@[simp] theorem zeros_length (n : Nat) : (zeros n).length = n := by simp [zeros]

@[simp] theorem be_length (v n : Nat) : (be v n).length = n := by
  induction n with
  | zero => rfl
  | succ n ih => simp [be, ih]

@[simp] theorem encode24_length (v : U32) : (encode24 v).length = 3 := be_length _ _

@[simp] theorem headerEncode_length (h : Header) : (headerEncode h).length = 20 := by
  simp [headerEncode]

theorem avpHeader_length (A : Avp) : (avpHeader A).length = hdrlen A.flags := by
  unfold avpHeader hdrlen
  split <;> simp_all

/-- The wire size of an AVP (R163). -/
@[simp] theorem avpWire_length (A : Avp) : (avpWire A).length = avpPadded A := by
  simp [avpWire, avpHeader_length, avpPadded, avpLength, Nat.add_assoc]

/-! ## Fields over literal bytes -/

theorem bigEndian_three (x y z : Byte) : bigEndian [x, y, z] = (x ++ y ++ z).toNat := by
  simp only [bigEndian, List.foldl, BitVec.toNat_append, Nat.shiftLeft_eq, Nat.zero_mul, Nat.zero_add]
  rw [← Nat.shiftLeft_eq _ 8, ← Nat.shiftLeft_eq _ 8, ← Nat.shiftLeft_add_eq_or_of_lt y.isLt, Nat.shiftLeft_eq, Nat.shiftLeft_eq,
    ← Nat.shiftLeft_eq _ 8, ← Nat.shiftLeft_add_eq_or_of_lt z.isLt, Nat.shiftLeft_eq]

theorem bigEndian_four (w x y z : Byte) : bigEndian [w, x, y, z] = (w ++ x ++ y ++ z).toNat := by
  rw [BitVec.toNat_append, ← bigEndian_three, ← Nat.shiftLeft_add_eq_or_of_lt z.isLt, Nat.shiftLeft_eq]
  rfl

theorem zero_append_toNat (x : BitVec 24) : (0#8 ++ x).toNat = x.toNat := by
  rw [BitVec.toNat_append]; simp

theorem ofNat_toNat_append (x : BitVec 24) : BitVec.ofNat 32 x.toNat = 0#8 ++ x := by
  apply BitVec.eq_of_toNat_eq
  have h := zero_append_toNat x
  have := x.isLt
  rw [BitVec.toNat_ofNat, Nat.mod_eq_of_lt (by omega)]
  exact h.symm

/-- A 24-bit field, zero-extended (R110). -/
theorem decode24_three (x y z : Byte) : decode24 [x, y, z] = 0#8 ++ (x ++ y ++ z) := by
  simp only [decode24, memRead, slice, List.take, List.drop, bigEndian_three]
  exact ofNat_toNat_append _

theorem decode24_three_toNat (x y z : Byte) : (decode24 [x, y, z]).toNat = (x ++ y ++ z).toNat := by
  rw [decode24_three]; exact zero_append_toNat _

/-- A 32-bit field from four bytes (R90). -/
theorem ofNat_bigEndian_four (w x y z : Byte) : BitVec.ofNat 32 (bigEndian [w, x, y, z]) = w ++ x ++ y ++ z := by
  rw [bigEndian_four]; simp

/-- A decoded 24-bit field is below 2^24 (R110). -/
theorem decode24_lt (B : Bytes) (h : B.length = 3) : (decode24 B).toNat < 2 ^ 24 := by
  match B, h with
  | [x, y, z], _ => rw [decode24_three_toNat]; exact (x ++ y ++ z).isLt

theorem ofNat_div_eq_extract (w : Nat) (v : BitVec w) (n : Nat) :
    BitVec.ofNat 8 (v.toNat / 2 ^ n) = v.extractLsb' n 8 := by
  apply BitVec.eq_of_toNat_eq
  simp [BitVec.extractLsb'_toNat, Nat.shiftRight_eq_div_pow]

theorem ofNat_mod_div_eq_extract (v : U32) (n : Nat) (hn : n + 8 ≤ 24) :
    BitVec.ofNat 8 (v.toNat % 2 ^ 24 / 2 ^ n) = v.extractLsb' n 8 := by
  apply BitVec.eq_of_toNat_eq
  simp only [BitVec.toNat_ofNat, BitVec.extractLsb'_toNat, Nat.shiftRight_eq_div_pow]
  have h : (2 : Nat) ^ 24 = 2 ^ n * 2 ^ (24 - n) := by rw [← pow_add]; congr 1; omega
  rw [h, Nat.mod_mul_right_div_self, Nat.mod_mod_of_dvd]
  exact pow_dvd_pow 2 (by omega)

/-- The three bytes of a 24-bit field (R111). -/
theorem encode24_bytes (v : U32) :
    encode24 v = [v.extractLsb' 16 8, v.extractLsb' 8 8, v.extractLsb' 0 8] := by
  have h2 := ofNat_mod_div_eq_extract v 16 (by omega)
  have h1 := ofNat_mod_div_eq_extract v 8 (by omega)
  have h0 := ofNat_mod_div_eq_extract v 0 (by omega)
  simp only [encode24, be] at *
  rw [← h2, ← h1, ← h0]
  norm_num

/-- The four bytes of a 32-bit field (R90). -/
theorem be_four (v : U32) :
    be v.toNat 4 = [v.extractLsb' 24 8, v.extractLsb' 16 8, v.extractLsb' 8 8, v.extractLsb' 0 8] := by
  have h3 := ofNat_div_eq_extract 32 v 24
  have h2 := ofNat_div_eq_extract 32 v 16
  have h1 := ofNat_div_eq_extract 32 v 8
  have h0 := ofNat_div_eq_extract 32 v 0
  simp only [be]
  rw [← h3, ← h2, ← h1, ← h0]
  norm_num

/-- The bytes of a 24-bit field join to the value's low 24 bits. -/
theorem extract_join_three (v : U32) :
    (v.extractLsb' 16 8 ++ v.extractLsb' 8 8 ++ v.extractLsb' 0 8 : BitVec 24) = v.extractLsb' 0 24 := by
  apply BitVec.eq_of_getLsbD_eq
  intro i hi
  simp only [BitVec.getLsbD_append, BitVec.getLsbD_extractLsb']
  by_cases h0 : i < 8
  · simp [h0, hi]
  · by_cases h1 : i - 8 < 8
    · simp [h0, h1, hi]; congr 1; omega
    · have h2 : i - 8 - 8 < 8 := by omega
      simp [h0, h1, h2, hi]; congr 1; omega

/-- The bytes of a 32-bit field join to the value. -/
theorem extract_join_four (v : U32) :
    (v.extractLsb' 24 8 ++ v.extractLsb' 16 8 ++ v.extractLsb' 8 8 ++ v.extractLsb' 0 8 : BitVec 32) = v := by
  apply BitVec.eq_of_getLsbD_eq
  intro i hi
  simp only [BitVec.getLsbD_append, BitVec.getLsbD_extractLsb']
  by_cases h0 : i < 8
  · simp [h0]
  · by_cases h1 : i - 8 < 8
    · simp [h0, h1]; congr 1; omega
    · by_cases h2 : i - 8 - 8 < 8
      · simp [h0, h1, h2]; congr 1; omega
      · have h3 : i - 8 - 8 - 8 < 8 := by omega
        simp [h0, h1, h2, h3]; congr 1; omega

/-- Joining three bytes and splitting them again. -/
theorem split_join_three (x y z : Byte) :
    ((0#8 ++ (x ++ y ++ z) : U32).extractLsb' 16 8 = x) ∧ ((0#8 ++ (x ++ y ++ z) : U32).extractLsb' 8 8 = y)
      ∧ ((0#8 ++ (x ++ y ++ z) : U32).extractLsb' 0 8 = z) := by
  refine ⟨?_, ?_, ?_⟩ <;>
  · apply BitVec.eq_of_getLsbD_eq
    intro i hi
    simp only [BitVec.getLsbD_append, BitVec.getLsbD_extractLsb']
    interval_cases i <;> simp

end Sys2Proof.Machine
end

