-- ==== Sys2Proof/Laws/Codec.lean ====
section
/-! SUPPORT. What the codec functions answer: a header and an AVP decoded from literal bytes, from their encodings, and the lengths of
what they accept. -/

namespace Sys2Proof.Machine

/-- A list of at least n elements begins with n elements. -/
theorem exists_take_append (B : Bytes) (n : Nat) (h : n ≤ B.length) : ∃ X Y : Bytes, X.length = n ∧ B = X ++ Y :=
  ⟨B.take n, B.drop n, by simp [h], by simp⟩

/-! ## Headers -/

/-- The seven fields from literal bytes (R81, R130). -/
theorem headerDecode_bytes (b0 b1 b2 b3 b4 b5 b6 b7 b8 b9 b10 b11 b12 b13 b14 b15 b16 b17 b18 b19 : Byte) (rest : Bytes) :
    headerDecode ([b0, b1, b2, b3, b4, b5, b6, b7, b8, b9, b10, b11, b12, b13, b14, b15, b16, b17, b18, b19] ++ rest)
      = .ok ⟨b0, 0#8 ++ (b1 ++ b2 ++ b3), b4, 0#8 ++ (b5 ++ b6 ++ b7), b8 ++ b9 ++ b10 ++ b11,
          b12 ++ b13 ++ b14 ++ b15, b16 ++ b17 ++ b18 ++ b19⟩ := by
  unfold headerDecode
  rw [if_neg (by simp)]
  simp [slice, byteAt, read32, memRead, decode24_three, ofNat_bigEndian_four]

theorem headerDecode_short (B : Bytes) (h : B.length < 20) : headerDecode B = .error .shortBuffer := by
  simp [headerDecode, h]

/-- Only the first 20 bytes are read (R130). -/
theorem headerDecode_append (X rest : Bytes) (h : X.length = 20) : headerDecode (X ++ rest) = headerDecode X := by
  match X, h with
  | [b0, b1, b2, b3, b4, b5, b6, b7, b8, b9, b10, b11, b12, b13, b14, b15, b16, b17, b18, b19], _ =>
    have e := headerDecode_bytes b0 b1 b2 b3 b4 b5 b6 b7 b8 b9 b10 b11 b12 b13 b14 b15 b16 b17 b18 b19 []
    rw [headerDecode_bytes]
    simpa using e.symm

theorem headerDecode_ok (B : Bytes) (h : 20 ≤ B.length) : ∃ H, headerDecode B = .ok H := by
  unfold headerDecode
  rw [if_neg (by omega)]
  exact ⟨_, rfl⟩

/-- The MessageLength a decoded header holds is the wire value of bytes 1 to 3. -/
theorem headerDecode_messageLength {B : Bytes} {H : Header} (h : headerDecode B = .ok H) :
    H.messageLength = decode24 (slice B 1 4) := by
  unfold headerDecode at h
  split at h
  · cases h
  · cases h; rfl

theorem extract_low (v : U32) : (0#8 ++ v.extractLsb' 0 24 : U32) = BitVec.ofNat 32 (v.toNat % 2 ^ 24) := by
  rw [← ofNat_toNat_append]; simp

/-- Decoding an encoded header reduces the two 24-bit fields (R135, R136). -/
theorem headerDecode_headerEncode (h : Header) (rest : Bytes) :
    headerDecode (headerEncode h ++ rest) = .ok { h with
      messageLength := BitVec.ofNat 32 (h.messageLength.toNat % 2 ^ 24)
      commandCode := BitVec.ofNat 32 (h.commandCode.toNat % 2 ^ 24) } := by
  rw [headerDecode_append _ _ (headerEncode_length h)]
  have e : headerEncode h =
      [h.version, h.messageLength.extractLsb' 16 8, h.messageLength.extractLsb' 8 8, h.messageLength.extractLsb' 0 8,
       h.commandFlags, h.commandCode.extractLsb' 16 8, h.commandCode.extractLsb' 8 8, h.commandCode.extractLsb' 0 8,
       h.applicationID.extractLsb' 24 8, h.applicationID.extractLsb' 16 8, h.applicationID.extractLsb' 8 8,
       h.applicationID.extractLsb' 0 8,
       h.hopByHopID.extractLsb' 24 8, h.hopByHopID.extractLsb' 16 8, h.hopByHopID.extractLsb' 8 8,
       h.hopByHopID.extractLsb' 0 8,
       h.endToEndID.extractLsb' 24 8, h.endToEndID.extractLsb' 16 8, h.endToEndID.extractLsb' 8 8,
       h.endToEndID.extractLsb' 0 8] ++ [] := by
    simp only [headerEncode, encode24_bytes, be_four, List.cons_append, List.nil_append, List.append_nil]
  rw [e, headerDecode_bytes, extract_join_three, extract_join_three, extract_join_four, extract_join_four,
    extract_join_four, extract_low, extract_low]

/-- A 24-bit value held in 32 bits is its own residue. -/
theorem ofNat_mod_of_lt (v : U32) (h : v.toNat < 2 ^ 24) : BitVec.ofNat 32 (v.toNat % 2 ^ 24) = v := by
  rw [Nat.mod_eq_of_lt h]; simp

/-! ## AVPs -/

/-- The declared Length of a buffer's AVP header (R154). -/
theorem declaredLength_bytes (c0 c1 c2 c3 f l0 l1 l2 : Byte) (rest : Bytes) :
    (decode24 (slice ([c0, c1, c2, c3, f, l0, l1, l2] ++ rest) 5 8)).toNat = (l0 ++ l1 ++ l2).toNat := by
  simp [slice, decode24_three_toNat]

theorem avpDecode_short (B : Bytes) (h : B.length < 8) : avpDecode B = .error .shortBuffer := by
  simp [avpDecode, h]

/-- V clear: the payload begins at offset 8 (R156). -/
theorem avpDecode_plain (c0 c1 c2 c3 f l0 l1 l2 : Byte) (rest : Bytes) (hf : vBit f = false) :
    avpDecode ([c0, c1, c2, c3, f, l0, l1, l2] ++ rest) =
      avpPayload ([c0, c1, c2, c3, f, l0, l1, l2] ++ rest) (c0 ++ c1 ++ c2 ++ c3) f 0 8 (l0 ++ l1 ++ l2).toNat := by
  unfold avpDecode
  rw [if_neg (by simp), declaredLength_bytes]
  simp [byteAt, hf, read32, memRead, slice, ofNat_bigEndian_four]

/-- V set on fewer than 12 bytes (R155). -/
theorem avpDecode_shortVendor (c0 c1 c2 c3 f l0 l1 l2 : Byte) (rest : Bytes) (hf : vBit f = true) (hr : rest.length < 4) :
    avpDecode ([c0, c1, c2, c3, f, l0, l1, l2] ++ rest) = .error .shortVendorBuffer := by
  unfold avpDecode
  rw [if_neg (by simp)]
  simp only [byteAt]
  simp [hf]
  omega

/-- V set: the VendorID at offsets 8 to 11, the payload from offset 12 (R155). -/
theorem avpDecode_vendor (c0 c1 c2 c3 f l0 l1 l2 v0 v1 v2 v3 : Byte) (rest : Bytes) (hf : vBit f = true) :
    avpDecode ([c0, c1, c2, c3, f, l0, l1, l2, v0, v1, v2, v3] ++ rest) =
      avpPayload ([c0, c1, c2, c3, f, l0, l1, l2, v0, v1, v2, v3] ++ rest) (c0 ++ c1 ++ c2 ++ c3) f
        (v0 ++ v1 ++ v2 ++ v3) 12 (l0 ++ l1 ++ l2).toNat := by
  unfold avpDecode
  rw [if_neg (by simp)]
  have e : [c0, c1, c2, c3, f, l0, l1, l2, v0, v1, v2, v3] ++ rest
      = [c0, c1, c2, c3, f, l0, l1, l2] ++ ([v0, v1, v2, v3] ++ rest) := rfl
  rw [e, declaredLength_bytes]
  simp only [byteAt]
  simp [hf, read32, memRead, slice, ofNat_bigEndian_four]

/-- The declared Length's own value in 32 bits. -/
theorem ofNat_join (l0 l1 l2 : Byte) : BitVec.ofNat 32 (l0 ++ l1 ++ l2).toNat = 0#8 ++ (l0 ++ l1 ++ l2) :=
  ofNat_toNat_append _

/-- What a successful AVP decode says about its buffer (R154 to R158). -/
theorem avpDecode_ok_inv {B : Bytes} {A : Avp} {L : U32} (h : avpDecode B = .ok (A, L)) :
    8 ≤ B.length ∧ L = decode24 (slice B 5 8) ∧ hdrlen A.flags ≤ L.toNat ∧ L.toNat ≤ B.length ∧
      L.toNat = avpLength A ∧ A.flags = byteAt B 4 := by
  unfold avpDecode at h
  have payload : ∀ (code : U32) (flags : Byte) (vid : U32) (hl : Nat) (l : U32), hl = hdrlen flags →
      avpPayload B code flags vid hl l.toNat = .ok (A, L) →
      L = l ∧ hdrlen A.flags ≤ L.toNat ∧ L.toNat ≤ B.length ∧ L.toNat = avpLength A ∧ A.flags = flags := by
    intro code flags vid hl l hhl hp
    unfold avpPayload at hp
    split at hp
    · cases hp
    · rename_i hn
      simp only [not_or, Nat.not_lt] at hn
      cases hp
      have e : (BitVec.ofNat 32 l.toNat) = l := by simp
      refine ⟨e, ?_, ?_, ?_, rfl⟩
      · rw [e]; simpa [← hhl] using hn.1
      · rw [e]; exact hn.2
      · rw [e]; simp only [avpLength, slice_length, ← hhl]; omega
  split at h
  · cases h
  · rename_i h8
    refine ⟨by omega, ?_⟩
    simp only at h
    split at h
    · rename_i hv
      split at h
      · cases h
      · exact payload _ _ _ _ _ (by simp [hdrlen, hv]) h
    · rename_i hv
      exact payload _ _ _ _ _ (by simp [hdrlen, hv]) h

/-- The first eight bytes of an encoded AVP. -/
theorem avpHeader_bytes (A : Avp) :
    avpHeader A =
      [A.code.extractLsb' 24 8, A.code.extractLsb' 16 8, A.code.extractLsb' 8 8, A.code.extractLsb' 0 8, A.flags,
       (BitVec.ofNat 32 (avpLength A)).extractLsb' 16 8, (BitVec.ofNat 32 (avpLength A)).extractLsb' 8 8,
       (BitVec.ofNat 32 (avpLength A)).extractLsb' 0 8]
      ++ (if vBit A.flags then
            [A.vendorID.extractLsb' 24 8, A.vendorID.extractLsb' 16 8, A.vendorID.extractLsb' 8 8,
             A.vendorID.extractLsb' 0 8]
          else []) := by
  simp only [avpHeader, encode24_bytes, be_four, List.cons_append, List.nil_append]

theorem pad4_le (L : Nat) : pad4 L ≤ 3 := by unfold pad4; omega

theorem pad4_aligned (L : Nat) : (L + pad4 L) % 4 = 0 := by unfold pad4; omega

theorem avpPadded_aligned (A : Avp) : avpPadded A % 4 = 0 := pad4_aligned _

theorem avpPadded_ge (A : Avp) : 8 ≤ avpPadded A := by
  unfold avpPadded avpLength hdrlen
  split <;> omega

end Sys2Proof.Machine
end

