-- ==== Sys2Proof/Laws/State.lean ====
section
/-! SUPPORT. What each state update leaves in each field, so that no later proof unfolds one. -/

namespace Sys2Proof.Machine

/-! ## Reset values (R48) -/

@[simp] theorem resetResults_buf : ResultRegs.reset.buf = [] := rfl
@[simp] theorem resetResults_u32 : ResultRegs.reset.u32 = 0 := rfl
@[simp] theorem resetResults_hdr : ResultRegs.reset.hdr = Header.zero := rfl
@[simp] theorem resetResults_avp : ResultRegs.reset.avp = Avp.zero := rfl
@[simp] theorem resetResults_list : ResultRegs.reset.list = [] := rfl
@[simp] theorem resetResults_found : ResultRegs.reset.found = false := rfl
@[simp] theorem resetResults_trail : ResultRegs.reset.trail = 0 := rfl
@[simp] theorem idleFramer_phase : FramerRegs.idle.phase = .idle := rfl
@[simp] theorem idleFramer_buf : FramerRegs.idle.buf = [] := rfl
@[simp] theorem idleFramer_need : FramerRegs.idle.need = 0 := rfl

variable (s : State)

/-! ## raise -/

@[simp] theorem raise_params (e : Code) : (raise e s).params = s.params := rfl
@[simp] theorem raise_a (e : Code) : (raise e s).a = s.a := rfl
@[simp] theorem raise_cmd (e : Code) : (raise e s).cmd = s.cmd := rfl
@[simp] theorem raise_r (e : Code) : (raise e s).r = ResultRegs.reset := rfl
@[simp] theorem raise_msg (e : Code) : (raise e s).msg = s.msg := rfl
@[simp] theorem raise_status (e : Code) : (raise e s).status = { s.status with code := e } := rfl
@[simp] theorem raise_fr (e : Code) : (raise e s).fr = s.fr := rfl
@[simp] theorem raise_inp (e : Code) : (raise e s).inp = s.inp := rfl
@[simp] theorem raise_program (e : Code) : (raise e s).program = s.program := rfl
@[simp] theorem raise_events (e : Code) : (raise e s).events = s.events := rfl

/-! ## succeed -/

@[simp] theorem succeed_params (r : ResultRegs) (m : Message) : (succeed r m s).params = s.params := rfl
@[simp] theorem succeed_a (r : ResultRegs) (m : Message) : (succeed r m s).a = s.a := rfl
@[simp] theorem succeed_cmd (r : ResultRegs) (m : Message) : (succeed r m s).cmd = s.cmd := rfl
@[simp] theorem succeed_r (r : ResultRegs) (m : Message) : (succeed r m s).r = r := rfl
@[simp] theorem succeed_msg (r : ResultRegs) (m : Message) : (succeed r m s).msg = m := rfl
@[simp] theorem succeed_status (r : ResultRegs) (m : Message) : (succeed r m s).status = { s.status with code := .ok } := rfl
@[simp] theorem succeed_fr (r : ResultRegs) (m : Message) : (succeed r m s).fr = s.fr := rfl
@[simp] theorem succeed_inp (r : ResultRegs) (m : Message) : (succeed r m s).inp = s.inp := rfl
@[simp] theorem succeed_program (r : ResultRegs) (m : Message) : (succeed r m s).program = s.program := rfl
@[simp] theorem succeed_events (r : ResultRegs) (m : Message) : (succeed r m s).events = s.events := rfl

/-! ## setDefect -/

@[simp] theorem setDefect_params : (setDefect s).params = s.params := rfl
@[simp] theorem setDefect_a : (setDefect s).a = s.a := rfl
@[simp] theorem setDefect_cmd : (setDefect s).cmd = s.cmd := rfl
@[simp] theorem setDefect_r : (setDefect s).r = s.r := rfl
@[simp] theorem setDefect_msg : (setDefect s).msg = s.msg := rfl
@[simp] theorem setDefect_status : (setDefect s).status = { s.status with defect := true } := rfl
@[simp] theorem setDefect_fr : (setDefect s).fr = s.fr := rfl
@[simp] theorem setDefect_inp : (setDefect s).inp = s.inp := rfl
@[simp] theorem setDefect_program : (setDefect s).program = s.program := rfl
@[simp] theorem setDefect_events : (setDefect s).events = s.events := rfl

/-! ## consumeByte -/

@[simp] theorem consumeByte_params : (consumeByte s).params = s.params := rfl
@[simp] theorem consumeByte_a : (consumeByte s).a = s.a := rfl
@[simp] theorem consumeByte_cmd : (consumeByte s).cmd = s.cmd := rfl
@[simp] theorem consumeByte_r : (consumeByte s).r = s.r := rfl
@[simp] theorem consumeByte_msg : (consumeByte s).msg = s.msg := rfl
@[simp] theorem consumeByte_status : (consumeByte s).status = s.status := rfl
@[simp] theorem consumeByte_fr : (consumeByte s).fr = s.fr := rfl
@[simp] theorem consumeByte_inp : (consumeByte s).inp = { s.inp with bytes := s.inp.bytes.tail } := rfl
@[simp] theorem consumeByte_program : (consumeByte s).program = s.program := rfl
@[simp] theorem consumeByte_events : (consumeByte s).events = s.events := rfl

/-! ## closeStream -/

@[simp] theorem closeStream_params : (closeStream s).params = s.params := rfl
@[simp] theorem closeStream_a : (closeStream s).a = s.a := rfl
@[simp] theorem closeStream_cmd : (closeStream s).cmd = s.cmd := rfl
@[simp] theorem closeStream_r : (closeStream s).r = s.r := rfl
@[simp] theorem closeStream_msg : (closeStream s).msg = s.msg := rfl
@[simp] theorem closeStream_status : (closeStream s).status = s.status := rfl
@[simp] theorem closeStream_fr : (closeStream s).fr = s.fr := rfl
@[simp] theorem closeStream_inp : (closeStream s).inp = { s.inp with closed := true } := rfl
@[simp] theorem closeStream_program : (closeStream s).program = s.program := rfl
@[simp] theorem closeStream_events : (closeStream s).events = s.events := rfl

/-! ## resetBlock -/

@[simp] theorem resetBlock_params : (resetBlock s).params = s.params := rfl
@[simp] theorem resetBlock_a : (resetBlock s).a = OperandRegs.reset := rfl
@[simp] theorem resetBlock_cmd : (resetBlock s).cmd = 0x00 := rfl
@[simp] theorem resetBlock_r : (resetBlock s).r = ResultRegs.reset := rfl
@[simp] theorem resetBlock_msg : (resetBlock s).msg = Message.empty := rfl
@[simp] theorem resetBlock_status : (resetBlock s).status = Status.reset := rfl
@[simp] theorem resetBlock_fr : (resetBlock s).fr = FramerRegs.idle := rfl
@[simp] theorem resetBlock_inp : (resetBlock s).inp = s.inp := rfl
@[simp] theorem resetBlock_program : (resetBlock s).program = s.program := rfl
@[simp] theorem resetBlock_events : (resetBlock s).events = s.events := rfl

/-! ## writeOperand -/

@[simp] theorem writeOperand_params (a : OperandRegs) : (writeOperand a s).params = s.params := rfl
@[simp] theorem writeOperand_a (a : OperandRegs) : (writeOperand a s).a = a := rfl
@[simp] theorem writeOperand_cmd (a : OperandRegs) : (writeOperand a s).cmd = s.cmd := rfl
@[simp] theorem writeOperand_r (a : OperandRegs) : (writeOperand a s).r = s.r := rfl
@[simp] theorem writeOperand_msg (a : OperandRegs) : (writeOperand a s).msg = s.msg := rfl
@[simp] theorem writeOperand_status (a : OperandRegs) : (writeOperand a s).status = s.status := rfl
@[simp] theorem writeOperand_fr (a : OperandRegs) : (writeOperand a s).fr = s.fr := rfl
@[simp] theorem writeOperand_inp (a : OperandRegs) : (writeOperand a s).inp = s.inp := rfl
@[simp] theorem writeOperand_program (a : OperandRegs) : (writeOperand a s).program = s.program := rfl
@[simp] theorem writeOperand_events (a : OperandRegs) : (writeOperand a s).events = s.events := rfl

/-! ## finishFrame -/

@[simp] theorem finishFrame_params (c : Code) (ml : U32) (trail : BitVec 3) : (finishFrame c ml trail s).params = s.params := rfl
@[simp] theorem finishFrame_a (c : Code) (ml : U32) (trail : BitVec 3) : (finishFrame c ml trail s).a = s.a := rfl
@[simp] theorem finishFrame_cmd (c : Code) (ml : U32) (trail : BitVec 3) : (finishFrame c ml trail s).cmd = s.cmd := rfl
@[simp] theorem finishFrame_r (c : Code) (ml : U32) (trail : BitVec 3) : (finishFrame c ml trail s).r = { ResultRegs.reset with buf := s.fr.buf, u32 := ml, trail := trail } := rfl
@[simp] theorem finishFrame_msg (c : Code) (ml : U32) (trail : BitVec 3) : (finishFrame c ml trail s).msg = s.msg := rfl
@[simp] theorem finishFrame_status (c : Code) (ml : U32) (trail : BitVec 3) : (finishFrame c ml trail s).status = { s.status with code := c, busy := false } := rfl
@[simp] theorem finishFrame_fr (c : Code) (ml : U32) (trail : BitVec 3) : (finishFrame c ml trail s).fr = FramerRegs.idle := rfl
@[simp] theorem finishFrame_inp (c : Code) (ml : U32) (trail : BitVec 3) : (finishFrame c ml trail s).inp = s.inp := rfl
@[simp] theorem finishFrame_program (c : Code) (ml : U32) (trail : BitVec 3) : (finishFrame c ml trail s).program = s.program := rfl
@[simp] theorem finishFrame_events (c : Code) (ml : U32) (trail : BitVec 3) : (finishFrame c ml trail s).events = s.events := rfl

/-! ## takeByte -/

@[simp] theorem takeByte_params : (takeByte s).params = s.params := rfl
@[simp] theorem takeByte_a : (takeByte s).a = s.a := rfl
@[simp] theorem takeByte_cmd : (takeByte s).cmd = s.cmd := rfl
@[simp] theorem takeByte_r : (takeByte s).r = s.r := rfl
@[simp] theorem takeByte_msg : (takeByte s).msg = s.msg := rfl
@[simp] theorem takeByte_status : (takeByte s).status = s.status := rfl
@[simp] theorem takeByte_fr : (takeByte s).fr = { s.fr with buf := s.fr.buf ++ [inData s] } := rfl
@[simp] theorem takeByte_inp : (takeByte s).inp = { s.inp with bytes := s.inp.bytes.tail } := rfl
@[simp] theorem takeByte_program : (takeByte s).program = s.program := rfl
@[simp] theorem takeByte_events : (takeByte s).events = s.events := rfl

/-! ## countBodyByte -/

@[simp] theorem countBodyByte_params : (countBodyByte s).params = s.params := rfl
@[simp] theorem countBodyByte_a : (countBodyByte s).a = s.a := rfl
@[simp] theorem countBodyByte_cmd : (countBodyByte s).cmd = s.cmd := rfl
@[simp] theorem countBodyByte_r : (countBodyByte s).r = s.r := rfl
@[simp] theorem countBodyByte_msg : (countBodyByte s).msg = s.msg := rfl
@[simp] theorem countBodyByte_status : (countBodyByte s).status = s.status := rfl
@[simp] theorem countBodyByte_fr : (countBodyByte s).fr = { s.fr with need := s.fr.need - 1 } := rfl
@[simp] theorem countBodyByte_inp : (countBodyByte s).inp = s.inp := rfl
@[simp] theorem countBodyByte_program : (countBodyByte s).program = s.program := rfl
@[simp] theorem countBodyByte_events : (countBodyByte s).events = s.events := rfl

/-! ## offerBytes: nothing but the offered bytes, and those only while the stream is open -/

@[simp] theorem offerBytes_params (bs : Bytes) : (offerBytes bs s).params = s.params := by
  unfold offerBytes; split <;> rfl
@[simp] theorem offerBytes_a (bs : Bytes) : (offerBytes bs s).a = s.a := by
  unfold offerBytes; split <;> rfl
@[simp] theorem offerBytes_cmd (bs : Bytes) : (offerBytes bs s).cmd = s.cmd := by
  unfold offerBytes; split <;> rfl
@[simp] theorem offerBytes_r (bs : Bytes) : (offerBytes bs s).r = s.r := by
  unfold offerBytes; split <;> rfl
@[simp] theorem offerBytes_msg (bs : Bytes) : (offerBytes bs s).msg = s.msg := by
  unfold offerBytes; split <;> rfl
@[simp] theorem offerBytes_status (bs : Bytes) : (offerBytes bs s).status = s.status := by
  unfold offerBytes; split <;> rfl
@[simp] theorem offerBytes_fr (bs : Bytes) : (offerBytes bs s).fr = s.fr := by
  unfold offerBytes; split <;> rfl
@[simp] theorem offerBytes_program (bs : Bytes) : (offerBytes bs s).program = s.program := by
  unfold offerBytes; split <;> rfl
@[simp] theorem offerBytes_events (bs : Bytes) : (offerBytes bs s).events = s.events := by
  unfold offerBytes; split <;> rfl

@[simp] theorem offerBytes_inp (bs : Bytes) :
    (offerBytes bs s).inp = { s.inp with bytes := if s.inp.closed then s.inp.bytes else s.inp.bytes ++ bs } := by
  unfold offerBytes; split <;> rfl

end Sys2Proof.Machine
end

