-- ==== Sys2Proof/Laws/Commands.lean ====
section
/-! SUPPORT. Which errors each codec function raises, and the three ways a command other than FRAME ends: a success, a plain raise, or
MSGENC's LengthMismatch with DEFECT. -/

namespace Sys2Proof.Machine

theorem dec24_error {B : Bytes} {e : Code} (h : dec24 B = .error e) : e = .invalidWidth := by
  unfold dec24 at h; split at h <;> cases h; rfl

theorem headerDecode_error {B : Bytes} {e : Code} (h : headerDecode B = .error e) : e = .shortBuffer := by
  unfold headerDecode at h; split at h <;> cases h; rfl

theorem avpPayload_error {B : Bytes} {c v : U32} {f : Byte} {n L : Nat} {e : Code} (h : avpPayload B c f v n L = .error e) :
    e = .payloadTruncated := by
  unfold avpPayload at h; split at h <;> cases h; rfl

theorem avpDecode_error {B : Bytes} {e : Code} (h : avpDecode B = .error e) :
    e = .shortBuffer ∨ e = .shortVendorBuffer ∨ e = .payloadTruncated := by
  unfold avpDecode at h
  split at h
  · cases h; simp
  simp only at h
  split at h
  · split at h
    · cases h; simp
    · simp [avpPayload_error h]
  · simp [avpPayload_error h]

theorem avpEncode_error {A : Avp} {e : Code} (h : avpEncode A = .error e) : e = .emptyPayload := by
  unfold avpEncode at h; split at h <;> cases h; rfl

theorem avpencFit_error {limit : Option Nat} {p : Bytes × Nat} {e : Code} (h : avpencFit limit p = .error e) :
    e = .capacityExceeded := by
  unfold avpencFit at h; split at h <;> cases h; rfl

theorem avpLoop_error {limit : Option Nat} {B : Bytes} {fuel cur : Nat} {S : List Avp} {e : Code}
    (h : avpLoop limit B fuel cur S = .error e) :
    e = .truncatedAVP ∨ e = .shortBuffer ∨ e = .shortVendorBuffer ∨ e = .payloadTruncated ∨ e = .capacityExceeded := by
  induction fuel generalizing cur S with
  | zero => simp [avpLoop] at h
  | succ fuel ih =>
    simp only [avpLoop] at h
    split at h
    · cases h
    split at h
    · cases h; simp
    split at h
    · rename_i e' he; cases h; have := avpDecode_error he; tauto
    split at h
    · cases h; simp
    · exact ih h

theorem msgDecode_error {limit : Option Nat} {B : Bytes} {e : Code} (h : msgDecode limit B = .error e) :
    e = .shortMessage ∨ e = .truncatedAVP ∨ e = .shortBuffer ∨ e = .shortVendorBuffer ∨ e = .payloadTruncated
      ∨ e = .capacityExceeded := by
  unfold msgDecode at h
  split at h
  · cases h; simp
  split at h
  · rename_i e' he; cases h; simp [headerDecode_error he]
  split at h
  · rename_i e' he; cases h; have := avpLoop_error he; tauto
  · cases h

theorem msgEncode_error {M : Message} {e : Code} (h : msgEncode M = .error e) : e = .emptyPayload ∨ e = .lengthMismatch := by
  unfold msgEncode at h
  split at h
  · cases h; simp
  split at h <;> cases h; simp

/-- `conclude` answers a next state: a success or a raise. -/
theorem conclude_cases (res : Except Code (ResultRegs × Message)) (s : State) :
    (∃ r m, res = .ok (r, m) ∧ conclude res s = .next (succeed r m s)) ∨
    (∃ e, res = .error e ∧ conclude res s = .next (raise e s)) := by
  match res with
  | .ok (r, m) => exact .inl ⟨r, m, rfl, rfl⟩
  | .error e => exact .inr ⟨e, rfl, rfl⟩

/-- A plain end of a command: a success, or a raise of an error other than LengthMismatch. -/
theorem conclude_plain (i : Instr) (res : Except Code (ResultRegs × Message)) (s : State)
    (h : ∀ e, res = .error e → e ≠ .ok ∧ e ≠ .lengthMismatch) (hx : exec i s = conclude res s) :
    (∃ r m, exec i s = .next (succeed r m s)) ∨
    (∃ e, e ≠ .ok ∧ e ≠ .lengthMismatch ∧ exec i s = .next (raise e s)) ∨
    (i = .msgenc ∧ exec i s = .next (raise .lengthMismatch (setDefect s))) := by
  rcases conclude_cases res s with ⟨r, m, -, hc⟩ | ⟨e, he, hc⟩
  · exact .inl ⟨r, m, hx.trans hc⟩
  · exact .inr (.inl ⟨e, (h e he).1, (h e he).2, hx.trans hc⟩)

theorem map_error {α β : Type} {res : Except Code α} {f : α → β} {e : Code} (h : res.map f = .error e) : res = .error e := by
  cases res <;> simp_all [Except.map]

theorem avpenc_error {A : Avp} {limit : Option Nat} {e : Code} (h : (avpEncode A).bind (avpencFit limit) = .error e) :
    e = .emptyPayload ∨ e = .capacityExceeded := by
  cases ha : avpEncode A with
  | error e' => rw [ha] at h; cases h; exact .inl (avpEncode_error ha)
  | ok p => rw [ha] at h; exact .inr (avpencFit_error h)

/-- What a command other than FRAME can do, in every state (R21, R31, R270). -/
theorem exec_cases (i : Instr) (hi : i ≠ .frame) (s : State) :
    (∃ r m, exec i s = .next (succeed r m s)) ∨
    (∃ e, e ≠ .ok ∧ e ≠ .lengthMismatch ∧ exec i s = .next (raise e s)) ∨
    (i = .msgenc ∧ exec i s = .next (raise .lengthMismatch (setDefect s))) := by
  cases i with
  | frame => exact absurd rfl hi
  | dec24 =>
    refine conclude_plain _ _ s (fun e he => ?_) rfl
    simp [dec24_error (map_error he)]
  | hdrdec =>
    refine conclude_plain _ _ s (fun e he => ?_) rfl
    simp [headerDecode_error (map_error he)]
  | avpdec =>
    refine conclude_plain _ _ s (fun e he => ?_) rfl
    rcases avpDecode_error (map_error he) with h | h | h <;> simp [h]
  | avpenc =>
    refine conclude_plain _ _ s (fun e he => ?_) rfl
    rcases avpenc_error (map_error he) with h | h <;> simp [h]
  | msgdec =>
    refine conclude_plain _ _ s (fun e he => ?_) rfl
    rcases msgDecode_error (map_error he) with h | h | h | h | h | h <;> simp [h]
  | msgenc =>
    simp only [exec, execMsgenc]
    split
    · exact .inl ⟨_, _, rfl⟩
    · exact .inr (.inr ⟨trivial, rfl⟩)
    · rename_i e hne he
      refine .inr (.inl ⟨e, ?_, ?_, rfl⟩)
      · rcases msgEncode_error he with h | h <;> simp [h]
      · exact hne
  | msgget => simp only [exec, execMsgget]; split <;> exact .inl ⟨_, _, rfl⟩
  | msgdel => simp only [exec, execMsgdel]; split <;> exact .inl ⟨_, _, rfl⟩
  | msgapp =>
    simp only [exec, execMsgapp]
    split
    · exact .inr (.inl ⟨_, by simp, by simp, rfl⟩)
    · exact .inl ⟨_, _, rfl⟩
  | enc24 | hdrenc | msglen | msgsetl | msggetl | msgseth | msggeth | msgclr => exact .inl ⟨_, _, rfl⟩

end Sys2Proof.Machine
end

