-- ==== Sys2Proof/Laws/Framer.lean ====
section
/-! SUPPORT. What a framer step can do: which fields it leaves alone, its effect byte by byte, and how runs of the machine reduce to it. -/

namespace Sys2Proof.Machine

/-- A frame's end keeps everything a finish does not write (R237). -/
theorem completeFrame_cases (s : State) :
    (∃ M trail, msgDecode s.params.maxAvps s.fr.buf = .ok (M, trail) ∧
      completeFrame s = finishFrame .ok (frameLength s) (BitVec.ofNat 3 trail) { s with msg := M }) ∨
    (∃ e, msgDecode s.params.maxAvps s.fr.buf = .error e ∧ completeFrame s = finishFrame e (frameLength s) 0 s) := by
  unfold completeFrame
  split
  · rename_i M trail h; exact .inl ⟨M, trail, h, rfl⟩
  · rename_i e h; exact .inr ⟨e, h, rfl⟩

/-- A prefix whose MessageLength is at most 4 ends the frame (R233). -/
theorem evaluatePrefix_end (s : State) (h : (frameLength s).toNat ≤ 4) :
    evaluatePrefix s = finishFrame .noMessage (frameLength s) 0 s := if_pos h

/-- A longer one starts the body (R233). -/
theorem evaluatePrefix_body (s : State) (h : 4 < (frameLength s).toNat) :
    evaluatePrefix s = { s with fr := { s.fr with phase := .inBody, need := BitVec.ofNat 24 ((frameLength s).toNat - 4) } } :=
  if_neg (by omega)

/-- The seven things a framer step can do (R232 to R236, R239). -/
theorem framerStep_cases (s : State) :
    (framerStep s = s ∧ framerEnabled s = false) ∨
    (s.fr.phase = .inPrefix ∧ inValid s = true ∧ s.fr.buf.length + 1 ≠ 4 ∧ framerStep s = takeByte s) ∨
    (s.fr.phase = .inPrefix ∧ inValid s = true ∧ s.fr.buf.length + 1 = 4 ∧ framerStep s = evaluatePrefix (takeByte s)) ∨
    (s.fr.phase = .inBody ∧ inValid s = true ∧ s.fr.need - 1 ≠ 0 ∧ framerStep s = countBodyByte (takeByte s)) ∨
    (s.fr.phase = .inBody ∧ inValid s = true ∧ s.fr.need - 1 = 0 ∧ framerStep s = completeFrame (countBodyByte (takeByte s))) ∨
    (s.fr.phase = .inPrefix ∧ inValid s = false ∧ framerStep s = finishFrame .streamClosed 0 0 s) ∨
    (s.fr.phase = .inBody ∧ inValid s = false ∧ framerStep s = finishFrame .streamClosed (frameLength s) 0 s) := by
  unfold framerStep framerEnabled
  cases hp : s.fr.phase <;> cases hv : inValid s <;> cases hc : inClosed s <;>
    simp [prefixByte, bodyByte, streamEnded, hp]
  all_goals tauto

/-- With no event pending, an enabled framer takes the step (log entry 1). -/
theorem step_of_framerEnabled (s : State) (he : s.events = []) (h : framerEnabled s = true) :
    step s = .next (framerStep s) := by
  simp [step, he, defaultTurn, h]

theorem runSteps_zero (s : State) : runSteps 0 s = .next s := rfl

/-- One scheduled or default turn of an enabled framer, and the schedule after it. -/
theorem step_of_framerSchedule {n : Nat} {s : State} {rest : List Event} (h : framerSchedule (n + 1) s.events rest)
    (hf : framerEnabled s = true) :
    ∃ es, framerSchedule n es rest ∧ step s = .next (framerStep { s with events := es }) := by
  obtain ⟨k, hk, he, hr⟩ := h
  cases k with
  | zero =>
    obtain rfl : rest = [] := hr.resolve_left (by omega)
    have he' : s.events = [] := by simpa using he
    refine ⟨[], ⟨0, by omega, rfl, .inr rfl⟩, ?_⟩
    rw [step_of_framerEnabled s he' hf]
    congr 2
    cases s
    simp_all
  | succ k =>
    refine ⟨List.replicate k .framerTurn ++ rest, ⟨k, by omega, rfl, hr.imp_left (by omega)⟩, ?_⟩
    rw [List.replicate_succ, List.cons_append] at he
    simp [step, he, takeEvent]

/-- No framer turn left to take. -/
theorem framerSchedule_zero {events rest : List Event} (h : framerSchedule 0 events rest) : events = rest := by
  obtain ⟨k, hk, he, -⟩ := h
  obtain rfl : k = 0 := by omega
  simpa using he

/-- The first step of a run. -/
theorem runSteps_eq (n : Nat) (s : State) :
    runSteps (n + 1) s = match step s with
      | .next t => runSteps n t
      | .fault r => .fault r
      | .refused r => .refused r := by
  have e : Sys2Proof.core.step s = step s := rfl
  simp only [runSteps, Host.Core.run, e]
  cases step s <;> rfl

theorem runSteps_succ {s t : State} (n : Nat) (h : step s = .next t) : runSteps (n + 1) s = runSteps n t := by
  rw [runSteps_eq, h]

/-- A run of m + n steps is a run of m steps and then one of n. -/
theorem runSteps_add (m n : Nat) {s t : State} (h : runSteps m s = .next t) : runSteps (m + n) s = runSteps n t := by
  induction m generalizing s with
  | zero => rw [runSteps_zero] at h; cases h; rw [Nat.zero_add]
  | succ m ih =>
    rw [runSteps_eq] at h
    rw [Nat.add_right_comm, runSteps_eq]
    cases hs : step s with
    | next u => rw [hs] at h; exact ih h
    | fault f => rw [hs] at h; cases h
    | refused f => rw [hs] at h; cases h

end Sys2Proof.Machine
end

