-- ==== Sys2Proof/Laws/Parse.lean ====
section
/-! SUPPORT. The AVP boundary loop (R184) one pass at a time, over a buffer split at its cursor, and what a segment of a message is. -/

namespace Sys2Proof.Machine

/-- The loop ends when fewer than 8 bytes remain (R185). -/
theorem avpLoop_stop (limit : Option Nat) (B : Bytes) (fuel cur : Nat) (S : List Avp) (h : B.length - cur < 8) :
    avpLoop limit B fuel cur S = .ok (S, B.length - cur) := by
  cases fuel <;> simp [avpLoop, h]

/-- The declared Length of the AVP at the cursor (R184). -/
theorem declared_at_cursor (X Y : Bytes) : slice (X ++ Y) (X.length + 5) (X.length + 8) = slice Y 5 8 :=
  slice_append_right X Y 5 8

/-- One pass of the loop with the cursor between X and Y (R184). -/
theorem avpLoop_pass (limit : Option Nat) (X Y : Bytes) (fuel : Nat) (S : List Avp) (h : 8 ≤ Y.length) :
    avpLoop limit (X ++ Y) (fuel + 1) X.length S =
      let L := (decode24 (slice Y 5 8)).toNat
      if Y.length < L + pad4 L then .error .truncatedAVP
      else
        match avpDecode (Y.take (L + pad4 L)) with
        | .error e => .error e
        | .ok (A, _) =>
          if listFull limit S.length then .error .capacityExceeded
          else avpLoop limit (X ++ Y) fuel (X.length + (L + pad4 L)) (S ++ [A]) := by
  have hs : ∀ n, slice (X ++ Y) X.length (X.length + n) = Y.take n := by
    intro n
    have := slice_append_right X Y 0 n
    simpa [slice_zero] using this
  rw [avpLoop, if_neg (by simp; omega)]
  simp only [declared_at_cursor, Nat.add_assoc, hs, List.length_append, gt_iff_lt, Nat.add_lt_add_iff_left]
  all_goals split <;> rfl

/-- A segment holds at least an AVP header, and its declared Length is the record's (R184). -/
theorem segmentDecodes_inv {seg : Bytes} {A : Avp} (h : segmentDecodes seg A) :
    8 ≤ seg.length ∧ (decode24 (slice seg 5 8)).toNat = avpLength A ∧ seg.length = avpPadded A := by
  obtain ⟨L, hd, hl⟩ := h
  obtain ⟨h8, hL, -, -, hA, -⟩ := avpDecode_ok_inv hd
  refine ⟨h8, by rw [← hL, hA], ?_⟩
  rw [hl, hA]; rfl

/-- One pass over a segment that decodes (R184). -/
theorem avpLoop_segment (limit : Option Nat) (X seg rest : Bytes) (A : Avp) (fuel : Nat) (S : List Avp)
    (h : segmentDecodes seg A) :
    avpLoop limit (X ++ (seg ++ rest)) (fuel + 1) X.length S =
      if listFull limit S.length then .error .capacityExceeded
      else avpLoop limit ((X ++ seg) ++ rest) fuel (X ++ seg).length (S ++ [A]) := by
  obtain ⟨h8, hd, hp⟩ := segmentDecodes_inv h
  obtain ⟨L, hdec, hl⟩ := h
  rw [avpLoop_pass _ _ _ _ _ (by simp; omega), slice_append_left _ _ (by omega), hd]
  have e : avpLength A + pad4 (avpLength A) = seg.length := hp.symm
  simp only [e]
  rw [if_neg (by simp), List.take_left']
  · simp [hdec, List.append_assoc]
  · rfl

theorem withinLimit_succ {limit : Option Nat} {n : Nat} (h : withinLimit limit n = true) (hf : listFull limit n = false) :
    withinLimit limit (n + 1) = true := by
  cases limit with
  | none => rfl
  | some m => simp [withinLimit, listFull] at *; omega

theorem listFull_of_within {limit : Option Nat} {n k : Nat} (h : withinLimit limit n = true) (hk : k < n) :
    listFull limit k = false := by
  cases limit with
  | none => rfl
  | some m => simp [withinLimit, listFull] at *; omega

end Sys2Proof.Machine
end

