-- ==== Sys2Proof/Laws/PerInstr.lean ====
section
/-! SUPPORT. Statements about every command as syntax, one lemma per constructor. -/

namespace Sys2Proof.Laws.Encoding

/-- The command is well-formed, its word decodes to it, and the word is its group in bits 7:4 and its function in bits 3:0 (R94, R95). -/
def Statement (i : Instr) : Prop :=
  i.wf = true ∧ decodeCmd (encode i) = .ok i ∧ cmdGroup (encode i) = groupOf i ∧ cmdFunction (encode i) = functionOf i

theorem dec24 : Statement .dec24 := by unfold Statement; decide

theorem enc24 : Statement .enc24 := by unfold Statement; decide

theorem hdrdec : Statement .hdrdec := by unfold Statement; decide

theorem hdrenc : Statement .hdrenc := by unfold Statement; decide

theorem avpdec : Statement .avpdec := by unfold Statement; decide

theorem avpenc : Statement .avpenc := by unfold Statement; decide

theorem msglen : Statement .msglen := by unfold Statement; decide

theorem msgenc : Statement .msgenc := by unfold Statement; decide

theorem msgdec : Statement .msgdec := by unfold Statement; decide

theorem msgget : Statement .msgget := by unfold Statement; decide

theorem msgdel : Statement .msgdel := by unfold Statement; decide

theorem msgsetl : Statement .msgsetl := by unfold Statement; decide

theorem msggetl : Statement .msggetl := by unfold Statement; decide

theorem msgseth : Statement .msgseth := by unfold Statement; decide

theorem msggeth : Statement .msggeth := by unfold Statement; decide

theorem msgapp : Statement .msgapp := by unfold Statement; decide

theorem msgclr : Statement .msgclr := by unfold Statement; decide

theorem frame : Statement .frame := by unfold Statement; decide

end Sys2Proof.Laws.Encoding
end

