-- ==== Sys2Proof/Laws/Step.lean ====
section
/-! SUPPORT. Everything one step of the machine can do, said once: a turn of the host, a step of the framer, or an event from outside. -/

namespace Sys2Proof.Machine

/-- A host write of CMD ends with the command's own answer, or as IllegalCommand (R21, R96). -/
theorem issueCommand_cases (v : Byte) (s : State) :
    (∃ i, decodeCmd v = .ok i ∧ issueCommand v s = exec i { s with cmd := v }) ∨
    (decodeCmd v = .error (.unassigned v) ∧ issueCommand v s = .next (illegalCommand { s with cmd := v })) := by
  unfold issueCommand
  cases h : decodeCmd v with
  | ok i => exact .inl ⟨i, rfl, rfl⟩
  | error e =>
    refine .inr ⟨?_, rfl⟩
    unfold decodeCmd at h
    split at h
    · cases h
    · exact h.symm

/-- A host action that answers a next state: an operand write whose value fits, a CMD write, or nothing (R29, R30, R50). -/
theorem hostAct_cases {act : HostAction} {s t : State} (h : hostAct act s = .next t) :
    t = s ∨
    (∃ a, t = writeOperand a s ∧
      (a.buf = s.a.buf ∨ withinLimit s.params.maxBuf a.buf.length = true) ∧
      (a.list = s.a.list ∨ withinLimit s.params.maxAvps a.list.length = true)) ∨
    (∃ v, act = .command v ∧ issueCommand v s = .next t) := by
  unfold hostAct at h
  split at h
  · rename_i hw
    cases act with
    | setBuf v => cases h; exact .inr (.inl ⟨_, rfl, .inr hw, .inl rfl⟩)
    | setU32 v => cases h; exact .inr (.inl ⟨_, rfl, .inl rfl, .inl rfl⟩)
    | setHdr v => cases h; exact .inr (.inl ⟨_, rfl, .inl rfl, .inl rfl⟩)
    | setAvp v => cases h; exact .inr (.inl ⟨_, rfl, .inl rfl, .inl rfl⟩)
    | setList v => cases h; exact .inr (.inl ⟨_, rfl, .inl rfl, .inr hw⟩)
    | command v => exact .inr (.inr ⟨v, rfl, h⟩)
    | setReadOnly q => cases h; exact .inl rfl
    | read q => cases h; exact .inl rfl
  · cases h

/-- The host's turn: nothing, or its next action (R22). -/
theorem hostTurn_cases {s t : State} (h : hostTurn s = .next t) :
    t = s ∨ ∃ act rest, s.program = act :: rest ∧ hostHeld s = false ∧ hostAct act { s with program := rest } = .next t := by
  unfold hostTurn at h
  split at h
  · cases h; exact .inl rfl
  · rename_i act rest hp
    split at h
    · cases h; exact .inl rfl
    · rename_i hh; exact .inr ⟨act, rest, hp, by simpa using hh, h⟩

/-- A step on the host's turn, scheduled or by default, is the host's turn on the state whose schedule no longer lists it. -/
theorem step_of_hostTurn {s : State} {es : List Event}
    (h : s.events = .hostTurn :: es ∨ s.events = [] ∧ es = [] ∧ framerEnabled s = false) :
    step s = hostTurn { s with events := es } := by
  rcases h with h | ⟨h, rfl, hf⟩
  · simp [step, h, takeEvent]
  · have e : { s with events := [] } = s := by cases s; simp_all
    rw [e]
    simp [step, h, defaultTurn, hf]

/-- What a step can do (R20, R290): the agent that moves does so on the state whose schedule no longer lists the event. -/
theorem step_cases {s t : State} (h : step s = .next t) :
    ∃ es, (s.events = [] ∧ es = [] ∨ ∃ e, s.events = e :: es) ∧
      (hostTurn { s with events := es } = .next t ∨
       t = framerStep { s with events := es } ∨
       (∃ bs, s.events = .offer bs :: es ∧ t = offerBytes bs { s with events := es }) ∨
       (s.events = .close :: es ∧ t = closeStream { s with events := es }) ∨
       (s.events = .reset :: es ∧ t = resetBlock { s with events := es })) := by
  unfold step at h
  split at h
  · rename_i e es he
    refine ⟨es, .inr ⟨e, he⟩, ?_⟩
    cases e with
    | hostTurn => exact .inl h
    | framerTurn => cases h; exact .inr (.inl rfl)
    | offer bs => cases h; exact .inr (.inr (.inl ⟨bs, he, rfl⟩))
    | close => cases h; exact .inr (.inr (.inr (.inl ⟨he, rfl⟩)))
    | reset => cases h; exact .inr (.inr (.inr (.inr ⟨he, rfl⟩)))
  · rename_i he
    have e : { s with events := [] } = s := by cases s; simp_all
    refine ⟨[], .inl ⟨he, rfl⟩, ?_⟩
    rw [e]
    unfold defaultTurn at h
    split at h
    · cases h; exact .inr (.inl rfl)
    · exact .inl h

end Sys2Proof.Machine
end

