-- ==== Sys2Proof/Tests/Slice0.lean ====
section
/-! SUPPORT. The model's own tests: ill-formed terms that WellFormed refuses, command words written out bit by bit, the worked examples of
95_test_vectors.md one step at a time, and for every statement with hypotheses a state and operands that meet them. Every
expected value comes from the spec's table or is counted by hand from its rules. -/

namespace Sys2Proof.Tests

open Machine

/-- Data of any length, and none of it computed. -/
theorem exists_bytes (n : Nat) : ∃ d : Bytes, d.length = n := ⟨zeros n, zeros_length n⟩

theorem ne_nil_of_length {d : Bytes} {n : Nat} (h : d.length = n) (hn : 0 < n) : d ≠ [] := by
  intro e
  rw [e] at h
  exact absurd h.symm (Nat.ne_of_gt hn)

/-- The total of a message with one V-clear AVP. -/
theorem totalLength_one (h : Header) {d : Bytes} {n : Nat} (hd : d.length = n) :
    totalLength ⟨h, [⟨1, 0, 0, d⟩]⟩ = 20 + (8 + n + pad4 (8 + n)) := by
  simp [totalLength, avpPadded, avpLength, hdrlen, vBit, hd]

/-! ## WellFormed refuses ill-formed terms (R131, R151, R8, R9, R29) -/

theorem test_wf_header_messageLength : ({ Header.zero with messageLength := 0x01000000 } : Header).wf = false := by decide
theorem test_wf_header_commandCode : ({ Header.zero with commandCode := 0x01000000 } : Header).wf = false := by decide
theorem test_wf_header_largest : ({ Header.zero with messageLength := 0xFFFFFF, commandCode := 0xFFFFFF } : Header).wf = true := by
  decide
theorem test_wf_avp_emptyData : (⟨1, 0x80, 5, []⟩ : Avp).wf = false := by decide
theorem test_wf_avp_vendorWithoutV : (⟨1, 0x00, 5, [0xAB]⟩ : Avp).wf = false := by decide
theorem test_wf_avp_tooLong (d : Bytes) (hd : d.length = 16777208) : (⟨1, 0x00, 0, d⟩ : Avp).wf = false := by
  simp [Avp.wf, avpLength, hdrlen, vBit, hd]
theorem test_wf_avp_good : (⟨1, 0x80, 5, [0xAB]⟩ : Avp).wf = true := by decide
theorem test_wf_params_smallBuf : (⟨some 16777214, none⟩ : Params).wf = false := by decide
theorem test_wf_params_noAvps : (⟨none, some 0⟩ : Params).wf = false := by decide
theorem test_wf_params_smallest : (⟨some 16777215, some 1⟩ : Params).wf = true := by decide
theorem test_wf_host_bufTooLong : HostAction.wf ⟨some 2, none⟩ (.setBuf [1, 2, 3]) = false := by decide
theorem test_wf_host_listTooLong : HostAction.wf ⟨none, some 1⟩ (.setList [Avp.zero, Avp.zero]) = false := by decide
theorem test_wf_every_command : Instr.all.all Instr.wf = true := by decide

/-! ## Command words, written out from R94 and R95 -/

theorem test_decode_integer : decodeCmd 0b00000001 = .ok .dec24 ∧ decodeCmd 0b00000010 = .ok .enc24 := by decide
theorem test_decode_header : decodeCmd 0b00010000 = .ok .hdrdec ∧ decodeCmd 0b00010001 = .ok .hdrenc := by decide
theorem test_decode_avp : decodeCmd 0b00100000 = .ok .avpdec ∧ decodeCmd 0b00100001 = .ok .avpenc := by decide
theorem test_decode_message :
    decodeCmd 0b00110000 = .ok .msglen ∧ decodeCmd 0b00110001 = .ok .msgenc ∧ decodeCmd 0b00110010 = .ok .msgdec ∧
    decodeCmd 0b00110011 = .ok .msgget ∧ decodeCmd 0b00110100 = .ok .msgdel ∧ decodeCmd 0b00110101 = .ok .msgsetl := by decide
theorem test_decode_store :
    decodeCmd 0b00110110 = .ok .msggetl ∧ decodeCmd 0b00110111 = .ok .msgseth ∧ decodeCmd 0b00111000 = .ok .msggeth ∧
    decodeCmd 0b00111001 = .ok .msgapp ∧ decodeCmd 0b00111010 = .ok .msgclr := by decide
theorem test_decode_frame : decodeCmd 0b01000000 = .ok .frame := by decide
/-- The neighbours of every group's last word are unassigned (R96). -/
theorem test_decode_unassigned :
    decodeTableWord 8 0x00 = none ∧ decodeTableWord 8 0x03 = none ∧ decodeTableWord 8 0x12 = none ∧
    decodeTableWord 8 0x22 = none ∧ decodeTableWord 8 0x3B = none ∧ decodeTableWord 8 0x41 = none ∧
    decodeTableWord 8 0xFF = none := by decide

/-! ## The named values of 95_test_vectors.md section 0 -/

def hdrA : Header := ⟨1, 0, 0x80, 275, 16777216, 10, 20⟩
def hdrA60 : Header := { hdrA with messageLength := 60 }
def hdrD : Header := ⟨1, 0, 0x80, 257, 0, 0x11223344, 0x55667788⟩
def text31 : Bytes :=
  [0x61, 0x62, 0x63, 0x64, 0x65, 0x66, 0x67, 0x68, 0x69, 0x6A, 0x6B, 0x6C, 0x6D, 0x6E, 0x6F, 0x70] ++
  [0x71, 0x72, 0x73, 0x74, 0x75, 0x76, 0x77, 0x78, 0x79, 0x7A, 0x30, 0x31, 0x32, 0x33, 0x34]
def avpC : Avp := ⟨269, 0x00, 0, text31⟩
def avpB : Avp := ⟨258, 0x80, 10415, [0x00, 0x00, 0x03, 0xE7]⟩
def avpP : Avp := ⟨1, 0x00, 0, [0x11]⟩
def avpQ : Avp := ⟨2, 0x40, 0, [0x22, 0x22]⟩
def avpR : Avp := ⟨1, 0x00, 0, [0x33, 0x33, 0x33]⟩
def avpS : Avp := ⟨3, 0xC0, 10415, [0x44, 0x44, 0x44, 0x44]⟩
def avpE0 : Avp := ⟨1, 0x00, 0, []⟩
def header60 : Bytes :=
  [0x01, 0x00, 0x00, 0x3C, 0x80, 0x00, 0x01, 0x13, 0x01, 0x00, 0x00, 0x00, 0x00, 0x00, 0x00, 0x0A, 0x00, 0x00, 0x00, 0x14]
def wireB : Bytes := [0x00, 0x00, 0x01, 0x02, 0x80, 0x00, 0x00, 0x10, 0x00, 0x00, 0x28, 0xAF, 0x00, 0x00, 0x03, 0xE7]
def wireC : Bytes := [0x00, 0x00, 0x01, 0x0D, 0x00, 0x00, 0x00, 0x27] ++ text31 ++ [0x00]
def message60 : Bytes := header60 ++ wireC
def messageD4 : Bytes :=
  [0x01, 0x00, 0x00, 0x48, 0x80, 0x00, 0x01, 0x01, 0x00, 0x00, 0x00, 0x00, 0x11, 0x22, 0x33, 0x44, 0x55, 0x66, 0x77, 0x88] ++
  [0x00, 0x00, 0x00, 0x01, 0x00, 0x00, 0x00, 0x09, 0x11, 0x00, 0x00, 0x00] ++
  [0x00, 0x00, 0x00, 0x02, 0x40, 0x00, 0x00, 0x0A, 0x22, 0x22, 0x00, 0x00] ++
  [0x00, 0x00, 0x00, 0x01, 0x00, 0x00, 0x00, 0x0B, 0x33, 0x33, 0x33, 0x00] ++
  [0x00, 0x00, 0x00, 0x03, 0xC0, 0x00, 0x00, 0x10, 0x00, 0x00, 0x28, 0xAF, 0x44, 0x44, 0x44, 0x44]
/-- The smallest AVP on the wire: P, 12 bytes with 3 of padding. -/
def wireP : Bytes := [0x00, 0x00, 0x00, 0x01, 0x00, 0x00, 0x00, 0x09, 0x11, 0x00, 0x00, 0x00]

/-! ## Small states -/

def withBuf (B : Bytes) : State := { State.reset with a := { OperandRegs.reset with buf := B } }
def withU32 (v : U32) : State := { State.reset with a := { OperandRegs.reset with u32 := v } }
def withHdr (h : Header) : State := { State.reset with a := { OperandRegs.reset with hdr := h } }
def withAvp (A : Avp) : State := { State.reset with a := { OperandRegs.reset with avp := A } }
def withMsg (h : Header) (S : List Avp) : State := { State.reset with msg := ⟨h, S⟩ }
def withKey (S : List Avp) (c : U32) : State := { withU32 c with msg := ⟨Header.zero, S⟩ }
/-- A state whose framer holds `buf` in the given phase, with these bytes offered. -/
def framing (ph : FrPhase) (buf : Bytes) (need : U24) (offered : Bytes) (closed : Bool) : State :=
  { State.reset with
    fr := ⟨ph, buf, need⟩
    status := { Status.reset with busy := true }
    inp := ⟨offered, closed⟩ }

/-- What a command's answer shows to the host: its STATUS word and its results. -/
def seen (res : Result) : Option (BitVec 16 × ResultRegs) :=
  match res with
  | .next t => some (statusWord t, t.r)
  | .fault _ | .refused _ => none

/-- The message store after a command. -/
def stored (res : Result) : Option Message :=
  match res with
  | .next t => some t.msg
  | .fault _ | .refused _ => none

/-! ## Integer codec (95, section 2.1) -/

theorem test_dec24_noSignExtension :
    seen (exec .dec24 (withBuf [0x80, 0x00, 0x00])) = some (0x0000, { ResultRegs.reset with u32 := 8388608 }) := by decide
theorem test_dec24_fourBytes : seen (exec .dec24 (withBuf [0x00, 0x01, 0x13, 0x00])) = some (0x0001, ResultRegs.reset) := by decide
theorem test_enc24_truncates :
    seen (exec .enc24 (withU32 0x12345678)) = some (0x0000, { ResultRegs.reset with buf := [0x34, 0x56, 0x78] }) := by decide
theorem test_pad4 :
    [0, 1, 2, 3, 4, 9, 16, 39, 16777193].map pad4 = [0, 3, 2, 1, 0, 3, 0, 1, 3] := by decide

/-! ## Header codec (95, section 2.2) -/

theorem test_hdrenc_truncates :
    seen (exec .hdrenc (withHdr { hdrA with messageLength := 0x01000014, commandCode := 0xFFFFFFFF })) =
      some (0x0000, { ResultRegs.reset with
        buf := [0x01, 0x00, 0x00, 0x14, 0x80, 0xFF, 0xFF, 0xFF, 0x01, 0x00, 0x00, 0x00, 0x00, 0x00, 0x00, 0x0A,
          0x00, 0x00, 0x00, 0x14] }) := by decide
theorem test_hdrdec_ignoresTail :
    seen (exec .hdrdec (withBuf message60)) = some (0x0000, { ResultRegs.reset with hdr := hdrA60 }) := by decide
theorem test_hdrdec_short : seen (exec .hdrdec (withBuf (header60.take 19))) = some (0x0002, ResultRegs.reset) := by decide

/-! ## AVP codec (95, section 2.3) -/

theorem test_avpenc_vendor :
    seen (exec .avpenc (withAvp avpB)) = some (0x0000, { ResultRegs.reset with buf := wireB, u32 := 16 }) := by decide
theorem test_avpenc_padding :
    seen (exec .avpenc (withAvp ⟨1, 0x00, 0xDEADBEEF, [0xAB]⟩)) = some (0x0000, { ResultRegs.reset with
      buf := [0x00, 0x00, 0x00, 0x01, 0x00, 0x00, 0x00, 0x09, 0xAB, 0x00, 0x00, 0x00], u32 := 9 }) := by decide
theorem test_avpdec_paddingNotRead :
    seen (exec .avpdec (withBuf [0x00, 0x00, 0x00, 0x01, 0x00, 0x00, 0x00, 0x09, 0xAB, 0xFF, 0xFF, 0xFF])) =
      some (0x0000, { ResultRegs.reset with avp := ⟨1, 0, 0, [0xAB]⟩, u32 := 9 }) := by decide
theorem test_avpdec_vendorCheckFirst :
    seen (exec .avpdec (withBuf [0x00, 0x00, 0x00, 0x01, 0x80, 0x00, 0x00, 0x00])) = some (0x0003, ResultRegs.reset) := by decide

/-! ## Message assembler (95, sections 2.4 and 2.5) -/

theorem test_msglen_four :
    seen (exec .msglen (withMsg hdrD [avpP, avpQ, avpR, avpS])) = some (0x0000, { ResultRegs.reset with u32 := 72 }) := by decide
theorem test_msglen_emptyData :
    stored (exec .msglen (withMsg hdrA [avpE0, ⟨2, 0x80, 0, []⟩])) =
      some ⟨{ hdrA with messageLength := 40 }, [avpE0, ⟨2, 0x80, 0, []⟩]⟩ := by decide
theorem test_msgenc_four :
    seen (exec .msgenc (withMsg hdrD [avpP, avpQ, avpR, avpS])) =
      some (0x0000, { ResultRegs.reset with buf := messageD4, u32 := 72 }) := by rfl
theorem test_msgenc_emptyPayload : exec .msgenc (withMsg hdrA [avpC, avpE0]) = .next (raise .emptyPayload (withMsg hdrA [avpC, avpE0])) := by
  rfl
theorem test_msgdec_scenarioC :
    stored (exec .msgdec (withBuf message60)) = some ⟨hdrA60, [avpC]⟩ := by rfl
theorem test_msgdec_zeroTail :
    seen (exec .msgdec (withBuf (message60 ++ zeros 8))) = some (0x0002, ResultRegs.reset) := by rfl
theorem test_msgget_first :
    seen (exec .msgget (withKey [avpP, avpQ, avpR, avpS] 1)) =
      some (0x0000, { ResultRegs.reset with avp := avpP, found := true }) := by decide
theorem test_msgget_none :
    seen (exec .msgget (withKey [avpP, avpQ, avpR, avpS] 9)) = some (0x0000, ResultRegs.reset) := by decide
theorem test_msgdel_first :
    stored (exec .msgdel (withKey [avpP, avpQ, avpR, avpS] 1)) = some ⟨Header.zero, [avpQ, avpR, avpS]⟩ := by decide
theorem test_msgdel_none :
    seen (exec .msgdel (withKey [avpQ, avpS] 1)) = some (0x0000, ResultRegs.reset) := by decide
theorem test_msgsetl :
    stored (exec .msgsetl { State.reset with a := { OperandRegs.reset with list := [avpP, avpQ] } }) =
      some ⟨Header.zero, [avpP, avpQ]⟩ := by decide
theorem test_msggetl :
    seen (exec .msggetl (withMsg hdrA [avpP, avpQ])) = some (0x0000, { ResultRegs.reset with list := [avpP, avpQ] }) := by decide
theorem test_msgapp_duplicate :
    stored (exec .msgapp { withAvp avpP with msg := ⟨hdrA, [avpP]⟩ }) = some ⟨hdrA, [avpP, avpP]⟩ := by decide
theorem test_msgapp_full :
    seen (exec .msgapp { withAvp avpP with params := ⟨none, some 1⟩, msg := ⟨hdrA, [avpP]⟩ }) = some (0x000C, ResultRegs.reset) := by
  decide
theorem test_msgseth_untruncated :
    stored (exec .msgseth (withHdr { hdrA with messageLength := 0x01000000 })) =
      some ⟨{ hdrA with messageLength := 0x01000000 }, []⟩ := by decide
theorem test_msggeth :
    seen (exec .msggeth (withMsg hdrA60 [])) = some (0x0000, { ResultRegs.reset with hdr := hdrA60 }) := by decide
theorem test_msgclr : stored (exec .msgclr (withMsg hdrA [avpP])) = some ⟨Header.zero, []⟩ := by decide

/-! ## Stream framer (95, section 2.6) -/

theorem test_frame_start :
    exec .frame State.reset = .next { State.reset with fr := ⟨.inPrefix, [], 0⟩, status := ⟨.ok, true, false⟩ } := by rfl
/-- F-4: the fourth byte of `01 00 00 04`. -/
theorem test_framer_noMessage :
    seen (.next (framerStep (framing .inPrefix [0x01, 0x00, 0x00] 0 [0x04] false))) =
      some (0x0009, { ResultRegs.reset with buf := [0x01, 0x00, 0x00, 0x04], u32 := 4 }) := by decide
/-- F-5: the last byte of `01 00 00 05 AA`. -/
theorem test_framer_shortMessage :
    seen (.next (framerStep (framing .inBody [0x01, 0x00, 0x00, 0x05] 1 [0xAA] false))) =
      some (0x0007, { ResultRegs.reset with buf := [0x01, 0x00, 0x00, 0x05, 0xAA], u32 := 5 }) := by decide
/-- F-8: the closed stream after `01 00`. -/
theorem test_framer_streamClosed :
    seen (.next (framerStep (framing .inPrefix [0x01, 0x00] 0 [] true))) =
      some (0x000A, { ResultRegs.reset with buf := [0x01, 0x00] }) := by decide
/-- Program 4: a CMD write of 0x00. -/
theorem test_illegalCommand : seen (issueCommand 0x00 State.reset) = some (0x000B, ResultRegs.reset) := by decide
/-- Any command word is the first step after reset that withFetchWord sets up. -/
theorem test_fetch_first : step (State.reset.withFetchWord 8 0x40) = exec .frame { State.reset with cmd := 0x40 } := by rfl

/-! ## States and operands that meet each statement's hypotheses -/

/-- A read in the middle, one that ends at the buffer's end, and an empty one at the end. -/
theorem witness_BufferPrimitivesAreBigEndian :
    (∃ (B : Bytes) (off n : Nat), off + n ≤ B.length ∧ off = 1 ∧ n = 2 ∧ B.length = 4) ∧
    (∃ (B : Bytes) (off n : Nat), off + n ≤ B.length ∧ off = 1 ∧ n = 3 ∧ B.length = 4) ∧
    (∃ (B : Bytes) (off n : Nat), off + n ≤ B.length ∧ off = 4 ∧ n = 0 ∧ B.length = 4) :=
  ⟨⟨[1, 2, 3, 4], 1, 2, by decide⟩, ⟨[1, 2, 3, 4], 1, 3, by decide⟩, ⟨[1, 2, 3, 4], 4, 0, by decide⟩⟩

theorem witness_Dec24DecodesThreeBytes :
    (∃ (s : State) (x y z : Byte), s.a.buf = [x, y, z]) ∧
    (∃ s : State, s.a.buf.length = 2 ∧ s.a.buf.length ≠ 3) ∧ (∃ s : State, s.a.buf.length = 4 ∧ s.a.buf.length ≠ 3) :=
  ⟨⟨withBuf [0xFF, 0x01, 0x13], 0xFF, 0x01, 0x13, rfl⟩, ⟨withBuf [0, 1], by decide⟩, ⟨withBuf [0, 1, 0x13, 0], by decide⟩⟩

theorem witness_Integer24RoundTrip : ∃ B : Bytes, B.length = 3 ∧ encode24 (decode24 B) = B := ⟨[0xFF, 0x80, 0x01], by decide⟩

theorem witness_Pad4IsLeastPadding : (9 ≤ 12 ∧ 12 % 4 = 0 ∧ 9 + pad4 9 = 12) ∧ (8 ≤ 8 ∧ 8 % 4 = 0 ∧ 8 + pad4 8 = 8) := by decide

theorem witness_HdrdecReadsFixedLayout :
    (∃ (s : State) (b0 b1 b2 b3 b4 b5 b6 b7 b8 b9 b10 b11 b12 b13 b14 b15 b16 b17 b18 b19 : Byte),
      s.a.buf = [b0, b1, b2, b3, b4, b5, b6, b7, b8, b9, b10, b11, b12, b13, b14, b15, b16, b17, b18, b19] ++ []) ∧
    (∃ s : State, s.a.buf.length = 19 ∧ s.a.buf.length < 20) :=
  ⟨⟨withBuf header60, _, _, _, _, _, _, _, _, _, _, _, _, _, _, _, _, _, _, _, _, rfl⟩, ⟨withBuf (header60.take 19), by decide⟩⟩

theorem witness_HdrencWritesFixedLayout : ∃ (s : State) (h : Header), s.a.hdr = h ∧ h = hdrA := ⟨withHdr hdrA, hdrA, rfl, rfl⟩

theorem witness_HeaderRoundTrip :
    (∃ h : Header, h.wf = true ∧ h.messageLength = 0xFFFFFF ∧ h.commandCode = 0xFFFFFF) ∧ (∃ B : Bytes, 20 ≤ B.length ∧ B.length = 20) :=
  ⟨⟨{ hdrA with messageLength := 0xFFFFFF, commandCode := 0xFFFFFF }, by decide⟩, ⟨header60, by decide⟩⟩

theorem witness_AvpdecChecksThenDecodes_short : ∃ s : State, s.a.buf.length = 7 ∧ s.a.buf.length < 8 :=
  ⟨withBuf [0, 0, 0, 1, 0, 0, 0], by decide⟩

theorem witness_AvpdecChecksThenDecodes_shortVendor : ∃ (s : State) (f : Byte) (rest : Bytes),
    s.a.buf = [0, 0, 0, 1, f, 0, 0, 12] ++ rest ∧ f.getLsbD 7 = true ∧ rest.length < 4 ∧ rest.length = 3 :=
  ⟨withBuf [0, 0, 0, 1, 0x80, 0, 0, 12, 0, 0, 0x28], 0x80, [0, 0, 0x28], by decide⟩

/-- With V clear: Length 8 and Length 8 + |rest| decode, Length 7 and Length 9 + |rest| do not. -/
theorem witness_AvpdecChecksThenDecodes_plain : ∃ (s : State) (f : Byte) (rest : Bytes),
    s.a.buf = [0, 0, 0, 1, f, 0, 0, 9] ++ rest ∧ f.getLsbD 7 = false ∧
    (8 ≤ (0#8 ++ 0#8 ++ 8#8).toNat ∧ (0#8 ++ 0#8 ++ 8#8).toNat ≤ 8 + rest.length) ∧
    (8 ≤ (0#8 ++ 0#8 ++ 9#8).toNat ∧ (0#8 ++ 0#8 ++ 9#8).toNat = 8 + rest.length) ∧
    ¬ 8 ≤ (0#8 ++ 0#8 ++ 7#8).toNat ∧ ¬ (0#8 ++ 0#8 ++ 10#8).toNat ≤ 8 + rest.length :=
  ⟨withBuf [0, 0, 0, 1, 0, 0, 0, 9, 0xAB], 0, [0xAB], by decide⟩

/-- With V set: Length 12 and Length 12 + |rest| decode, Length 11 and Length 13 + |rest| do not. -/
theorem witness_AvpdecChecksThenDecodes_vendor : ∃ (s : State) (f : Byte) (rest : Bytes),
    s.a.buf = [0, 0, 0, 1, f, 0, 0, 13, 0, 0, 0x28, 0xAF] ++ rest ∧ f.getLsbD 7 = true ∧
    (12 ≤ (0#8 ++ 0#8 ++ 12#8).toNat ∧ (0#8 ++ 0#8 ++ 12#8).toNat ≤ 12 + rest.length) ∧
    (12 ≤ (0#8 ++ 0#8 ++ 13#8).toNat ∧ (0#8 ++ 0#8 ++ 13#8).toNat = 12 + rest.length) ∧
    ¬ 12 ≤ (0#8 ++ 0#8 ++ 11#8).toNat ∧ ¬ (0#8 ++ 0#8 ++ 14#8).toNat ≤ 12 + rest.length :=
  ⟨withBuf [0, 0, 0, 1, 0x80, 0, 0, 13, 0, 0, 0x28, 0xAF, 0xAB], 0x80, [0xAB], by decide⟩

theorem witness_AvpencWritesPaddedBytes_empty : ∃ (s : State) (A : Avp) (L : Nat),
    s.a.avp = A ∧ L = (if A.flags.getLsbD 7 then 12 else 8) + A.data.length ∧ A.data = [] :=
  ⟨withAvp avpE0, avpE0, 8, by decide⟩

/-- V-10: Length 2^24 with P_MAX_BUF at its least legal value. -/
theorem witness_AvpencWritesPaddedBytes_capacity : ∃ (s : State) (A : Avp) (L : Nat),
    s.params.wf = true ∧ s.a.avp = A ∧ L = (if A.flags.getLsbD 7 then 12 else 8) + A.data.length ∧ A.data ≠ [] ∧
    withinLimit s.params.maxBuf (L + (4 - L % 4) % 4) = false := by
  obtain ⟨d, hd⟩ := exists_bytes 16777208
  exact ⟨{ withAvp ⟨1, 0, 0, d⟩ with params := ⟨some 16777215, none⟩ }, ⟨1, 0, 0, d⟩, 16777216, by simp [Params.wf], rfl, by simp [hd],
    ne_nil_of_length hd (by decide), by simp [withinLimit]⟩

theorem witness_AvpencWritesPaddedBytes_fits : ∃ (s : State) (A : Avp) (L : Nat),
    s.params.wf = true ∧ s.a.avp = A ∧ L = (if A.flags.getLsbD 7 then 12 else 8) + A.data.length ∧ A.data ≠ [] ∧
    withinLimit s.params.maxBuf (L + (4 - L % 4) % 4) = true ∧ s.params.maxBuf = some 16777215 := by
  obtain ⟨d, hd⟩ := exists_bytes 16777204
  exact ⟨{ withAvp ⟨1, 0, 0, d⟩ with params := ⟨some 16777215, none⟩ }, ⟨1, 0, 0, d⟩, 16777212, by simp [Params.wf], rfl, by simp [hd],
    ne_nil_of_length hd (by decide), by simp [withinLimit], rfl⟩

theorem witness_AvpPaddingLaw : (∃ A : Avp, A.data = []) ∧ (∃ A : Avp, A.data ≠ [] ∧ pad4 (avpLength A) = 3) :=
  ⟨⟨avpE0, rfl⟩, ⟨avpP, by decide⟩⟩

theorem witness_AvpRoundTrip :
    (∃ A : Avp, A.wf = true ∧ vBit A.flags = true) ∧ (∃ A : Avp, A.wf = true ∧ vBit A.flags = false ∧ avpLength A = 2 ^ 24 - 1) := by
  obtain ⟨d, hd⟩ := exists_bytes 16777207
  exact ⟨⟨avpB, by decide⟩, ⟨⟨1, 0, 0, d⟩, by simp [Avp.wf, avpLength, hdrlen, vBit, hd], by simp [vBit], by simp [avpLength, hdrlen, vBit, hd]⟩⟩

theorem witness_AvpEmptyDataAndVendorEdges :
    (∃ (s : State) (f : Byte) (rest : Bytes), f.getLsbD 7 = false ∧ s.a.buf = [0, 0, 0, 1, f, 0, 0, 8] ++ rest) ∧
    (∃ (s : State) (f : Byte) (rest : Bytes), f.getLsbD 7 = true ∧ s.a.buf = [0, 0, 0, 1, f, 0, 0, 12, 0, 0, 0x28, 0xAF] ++ rest) ∧
    (∃ A : Avp, A.flags.getLsbD 7 = false) :=
  ⟨⟨withBuf [0, 0, 0, 1, 0, 0, 0, 8], 0, [], by decide⟩,
    ⟨withBuf [0, 0, 0, 1, 0x80, 0, 0, 12, 0, 0, 0x28, 0xAF], 0x80, [], by decide⟩, ⟨avpC, by decide⟩⟩

theorem witness_TotalLengthSumsPaddedAvps : ∃ A : Avp, A.data = [] ∧ A.flags.getLsbD 7 = true := ⟨⟨2, 0x80, 0, []⟩, by decide⟩

theorem witness_MsgencThreeOutcomes_empty : ∃ s : State, ∃ A ∈ s.msg.avps, A.data = [] :=
  ⟨withMsg hdrA [avpC, avpE0], avpE0, by decide⟩

/-- M-ENC-7: the smallest total that is too large, 2^24. -/
theorem witness_MsgencThreeOutcomes_mismatch : ∃ s : State, (∀ A ∈ s.msg.avps, A.data ≠ []) ∧ 2 ^ 24 - 1 < totalLength s.msg := by
  obtain ⟨d, hd⟩ := exists_bytes 16777185
  refine ⟨withMsg hdrA [⟨1, 0, 0, d⟩], ?_, ?_⟩
  · simpa [withMsg] using ne_nil_of_length hd (by decide)
  · rw [withMsg, totalLength_one _ hd]; decide

/-- M-ENC-6: the largest encodable total, 16777212. -/
theorem witness_MsgencThreeOutcomes_ok : ∃ s : State,
    (∀ A ∈ s.msg.avps, A.data ≠ []) ∧ totalLength s.msg ≤ 2 ^ 24 - 1 ∧ totalLength s.msg = 16777212 := by
  obtain ⟨d, hd⟩ := exists_bytes 16777184
  refine ⟨withMsg hdrA [⟨1, 0, 0, d⟩], ?_, ?_⟩
  · simpa [withMsg] using ne_nil_of_length hd (by decide)
  · rw [withMsg, totalLength_one _ hd]; decide

theorem witness_MsgencLengthIsCorrect : ∃ s t : State, exec .msgenc s = .next t ∧ t.status.code = .ok ∧ t.r.u32 = 72 :=
  ⟨withMsg hdrD [avpP, avpQ, avpR, avpS], _, rfl, rfl, rfl⟩

theorem witness_MsgdecRejectsShortBuffer : ∃ s : State, s.a.buf.length < 28 ∧ s.a.buf.length = 27 :=
  ⟨withBuf (message60.take 27), by decide⟩

theorem witness_MsgdecCommitsOnlyOnSuccess :
    (∃ (s : State) (M : Message) (trail : Nat), msgDecode s.params.maxAvps s.a.buf = .ok (M, trail) ∧ trail = 7) ∧
    (∃ (s : State) (e : Code), msgDecode s.params.maxAvps s.a.buf = .error e ∧ e = .truncatedAVP) :=
  ⟨⟨withBuf (message60 ++ [0xAA, 0xBB, 0xCC, 0xDD, 0xEE, 0xFF, 0x11]), ⟨hdrA60, [avpC]⟩, 7, rfl, rfl⟩,
    ⟨withBuf (message60.take 59), .truncatedAVP, rfl, rfl⟩⟩

theorem witness_MsgDecodeFindsExactBoundaries : ∃ (limit : Option Nat) (B : Bytes) (M : Message) (trail : Nat),
    msgDecode limit B = .ok (M, trail) ∧ limit = some 1 ∧ M.avps.length = 1 ∧ trail = 7 :=
  ⟨some 1, message60 ++ [0, 0, 0, 0, 0, 0, 0], ⟨hdrA60, [avpC]⟩, 7, rfl, rfl, rfl, rfl⟩

theorem segment_P : segmentsDecode [wireP] [avpP] := by
  refine List.Forall₂.cons ⟨9, by rfl, by decide⟩ List.Forall₂.nil

/-- A good AVP and then one whose padded end, 9 + 3, is one byte beyond the buffer. -/
theorem witness_MsgDecodeReportsFirstFailure_truncated : ∃ (limit : Option Nat) (head bad : Bytes) (segs : List Bytes) (S : List Avp) (L : Nat),
    head.length = 20 ∧ segmentsDecode segs S ∧ withinLimit limit S.length = true ∧ 8 ≤ bad.length ∧
    L = (decode24 (slice bad 5 8)).toNat ∧ bad.length < L + pad4 L ∧ bad.length + 1 = L + pad4 L ∧ S = [avpP] :=
  ⟨some 1, header60, wireP.take 11, [wireP], [avpP], 9, by decide, segment_P, by decide, by decide, by decide, by decide, by decide, rfl⟩

theorem witness_MsgDecodeReportsFirstFailure_error :
    ∃ (limit : Option Nat) (head bad : Bytes) (segs : List Bytes) (S : List Avp) (L : Nat) (e : Code),
    head.length = 20 ∧ segmentsDecode segs S ∧ withinLimit limit S.length = true ∧ 8 ≤ bad.length ∧
    L = (decode24 (slice bad 5 8)).toNat ∧ L + pad4 L ≤ bad.length ∧ avpDecode (bad.take (L + pad4 L)) = .error e ∧ S = [avpP] :=
  ⟨some 1, header60, [0, 0, 0, 1, 0, 0, 0, 7], [wireP], [avpP], 7, .payloadTruncated, by decide, segment_P, by decide, by decide,
    by decide, by decide, by rfl, rfl⟩

theorem witness_MsgDecodeReportsFirstFailure_capacity :
    ∃ (limit : Option Nat) (head bad : Bytes) (segs : List Bytes) (S : List Avp) (L : Nat) (p : Avp × U32),
    head.length = 20 ∧ segmentsDecode segs S ∧ withinLimit limit S.length = true ∧ 8 ≤ bad.length ∧
    L = (decode24 (slice bad 5 8)).toNat ∧ L + pad4 L ≤ bad.length ∧ avpDecode (bad.take (L + pad4 L)) = .ok p ∧
    limit = some S.length :=
  ⟨some 1, header60, wireP, [wireP], [avpP], 9, (avpP, 9), by decide, segment_P, by decide, by decide, by decide, by decide, by rfl, rfl⟩

theorem witness_MsgDecodeSmallLengthErrors :
    (∃ (head : Bytes) (L : Nat), head.length = 20 ∧ L = (0#8 ++ 0#8 ++ 4#8).toNat ∧ L ≤ 4) ∧
    (∃ (f : Byte) (L : Nat), L = (0#8 ++ 0#8 ++ 5#8).toNat ∧ 5 ≤ L ∧ L ≤ 7 ∧ f.getLsbD 7 = false) ∧
    (∃ (f : Byte) (L : Nat), L = (0#8 ++ 0#8 ++ 7#8).toNat ∧ 5 ≤ L ∧ L ≤ 7 ∧ f.getLsbD 7 = false) ∧
    (∃ (f : Byte) (L : Nat), L = (0#8 ++ 0#8 ++ 8#8).toNat ∧ 5 ≤ L ∧ L ≤ 8 ∧ f.getLsbD 7 = true) ∧
    (∃ (f : Byte) (L : Nat) (rest : Bytes), L = (0#8 ++ 0#8 ++ 9#8).toNat ∧ 9 ≤ L ∧ L ≤ 11 ∧ f.getLsbD 7 = true ∧ 4 ≤ rest.length) ∧
    (∃ (f : Byte) (L : Nat) (rest : Bytes), L = (0#8 ++ 0#8 ++ 11#8).toNat ∧ 9 ≤ L ∧ L ≤ 11 ∧ f.getLsbD 7 = true ∧ 4 ≤ rest.length) :=
  ⟨⟨header60, 4, by decide⟩, ⟨0, 5, by decide⟩, ⟨0, 7, by decide⟩, ⟨0x80, 8, by decide⟩, ⟨0x80, 9, [0, 0, 0, 0], by decide⟩,
    ⟨0x80, 11, [0, 0, 0, 0], by decide⟩⟩

theorem witness_MsgencThenMsgdecRestores : ∃ s : State,
    s.msg.avps ≠ [] ∧ (∀ A ∈ s.msg.avps, A.wf = true) ∧ totalLength s.msg < 2 ^ 24 ∧ s.msg.hdr.commandCode.toNat < 2 ^ 24 ∧
    withinLimit s.params.maxAvps s.msg.avps.length = true ∧ s.params.maxAvps = some 4 ∧ s.msg.avps.length = 4 :=
  ⟨{ withMsg hdrD [avpP, avpQ, avpR, avpS] with params := ⟨none, some 4⟩ }, by decide⟩

theorem witness_MsgappAppendsUnlessFull :
    (∃ s : State, s.params.maxAvps ≠ some s.msg.avps.length ∧ s.params.maxAvps = some 2 ∧ s.msg.avps.length = 1) ∧
    (∃ s : State, s.params.wf = true ∧ s.params.maxAvps = some s.msg.avps.length) :=
  ⟨⟨{ withMsg hdrA [avpP] with params := ⟨none, some 2⟩ }, by decide⟩, ⟨{ withMsg hdrA [avpP] with params := ⟨none, some 1⟩ }, by decide⟩⟩

theorem witness_MsgsetlReplacesList : ∃ (s t u : State) (later : List Avp),
    exec .msgsetl s = .next t ∧ hostAct (.setList later) t = .next u ∧ later ≠ s.a.list :=
  ⟨{ State.reset with a := { OperandRegs.reset with list := [avpP, avpQ] } }, _, _, [], rfl, rfl, by decide⟩

theorem witness_FirstIndexIsLeastMatch : firstIndex [avpQ, avpP, avpR] 1 = some 1 ∧ firstIndex [avpQ] 1 = none := by decide

theorem witness_MsggetFindsFirstMatch :
    (∃ (s : State) (before after : List Avp) (A : Avp), s.msg.avps = before ++ A :: after ∧ A.code = s.a.u32 ∧
      (∀ X ∈ before, X.code ≠ s.a.u32) ∧ before ≠ [] ∧ after ≠ []) ∧
    (∃ s : State, (∀ X ∈ s.msg.avps, X.code ≠ s.a.u32) ∧ s.msg.avps ≠ []) :=
  ⟨⟨withKey [avpQ, avpP, avpR] 1, [avpQ], [avpR], avpP, by decide⟩, ⟨withKey [avpQ] 1, by decide⟩⟩

/-- A match at index 0, and a search in an empty store. -/
theorem witness_MsgdelRemovesFirstMatch :
    (∃ (s : State) (before after : List Avp) (A : Avp), s.msg.avps = before ++ A :: after ∧ A.code = s.a.u32 ∧
      (∀ X ∈ before, X.code ≠ s.a.u32) ∧ before = []) ∧
    (∃ s : State, (∀ X ∈ s.msg.avps, X.code ≠ s.a.u32) ∧ s.msg.avps = []) :=
  ⟨⟨withKey [avpP, avpQ, avpR] 1, [], [avpQ, avpR], avpP, by decide⟩, ⟨withKey [] 1, by decide⟩⟩

theorem witness_FramerTakesPrefixByte :
    (∃ (s : State) (b : Byte) (rest : Bytes), s.fr.phase = .inPrefix ∧ s.inp.bytes = b :: rest ∧ s.fr.buf.length < 3 ∧ s.fr.buf.length = 2) ∧
    (∃ (s : State) (b : Byte) (rest : Bytes), s.fr.phase = .inPrefix ∧ s.inp.bytes = b :: rest ∧ s.fr.buf = [1, 0, 0] ∧
      (0#8 ++ 0#8 ++ b).toNat ≤ 4 ∧ b = 4) ∧
    (∃ (s : State) (b : Byte) (rest : Bytes), s.fr.phase = .inPrefix ∧ s.inp.bytes = b :: rest ∧ s.fr.buf = [1, 0, 0] ∧
      ¬ (0#8 ++ 0#8 ++ b).toNat ≤ 4 ∧ b = 5) :=
  ⟨⟨framing .inPrefix [1, 0] 0 [0] false, 0, [], by decide⟩, ⟨framing .inPrefix [1, 0, 0] 0 [4] false, 4, [], by decide⟩,
    ⟨framing .inPrefix [1, 0, 0] 0 [5, 0xAA] false, 5, [0xAA], by decide⟩⟩

/-- The first 59 bytes of the 60-byte message in FR_BUF, one still to come. -/
def oneByteShort : State := framing .inBody (message60.take 59) 1 [0x00] false

theorem witness_FramerTakesBodyByte :
    (∃ (s : State) (b : Byte) (rest : Bytes), s.fr.phase = .inBody ∧ s.inp.bytes = b :: rest ∧ s.fr.need ≠ 1 ∧ s.fr.need = 2) ∧
    (∃ (s : State) (b : Byte) (rest : Bytes), s.fr.phase = .inBody ∧ s.inp.bytes = b :: rest ∧ s.fr.need = 1 ∧
      msgDecode s.params.maxAvps (s.fr.buf ++ [b]) = .ok (⟨hdrA60, [avpC]⟩, 0)) ∧
    (∃ (s : State) (b : Byte) (rest : Bytes), s.fr.phase = .inBody ∧ s.inp.bytes = b :: rest ∧ s.fr.need = 1 ∧
      msgDecode s.params.maxAvps (s.fr.buf ++ [b]) = .error .shortMessage) :=
  ⟨⟨framing .inBody [1, 0, 0, 6] 2 [0xAA] false, 0xAA, [], by decide⟩, ⟨oneByteShort, 0, [], rfl, rfl, rfl, rfl⟩,
    ⟨framing .inBody [1, 0, 0, 5] 1 [0xAA] false, 0xAA, [], rfl, rfl, rfl, rfl⟩⟩

theorem witness_FramerWithoutOfferedByte :
    (∃ s : State, s.fr.phase ≠ .idle ∧ s.inp.bytes = [] ∧ s.inp.closed = true ∧ s.fr.phase = .inPrefix) ∧
    (∃ s : State, s.fr.phase ≠ .idle ∧ s.inp.bytes = [] ∧ s.inp.closed = true ∧ s.fr.phase = .inBody) ∧
    (∃ s : State, s.inp.bytes = [] ∧ s.inp.closed = false ∧ s.fr.phase ≠ .idle) ∧ (∃ s : State, s.fr.phase = .idle) :=
  ⟨⟨framing .inPrefix [1] 0 [] true, by decide⟩, ⟨framing .inBody [1, 0, 0, 9] 5 [] true, by decide⟩,
    ⟨framing .inPrefix [] 0 [] false, by decide⟩, ⟨State.reset, rfl⟩⟩

theorem witness_FramerTakesByteBeforeClose : ∃ (s : State) (b : Byte) (rest : Bytes), s.inp.bytes = b :: rest ∧ s.fr.phase ≠ .idle ∧
    s.inp.closed = true := ⟨framing .inPrefix [1] 0 [0] true, 0, [], by decide⟩

/-- F-5 with every turn scheduled, the same with the last two by default, and F-4 with none scheduled. -/
theorem witness_FrameReceivesWholeMessage :
    (∃ (s : State) (frame rest : Bytes) (es : List Event), framerSchedule frame.length s.events es ∧ s.status.busy = true ∧
      s.fr = ⟨.inPrefix, [], 0⟩ ∧ s.inp.bytes = frame ++ rest ∧ 5 ≤ frame.length ∧
      (decode24 (slice frame 1 4)).toNat = frame.length ∧ frame.length = 5 ∧ es = [.close]) ∧
    (∃ (s : State) (frame rest : Bytes) (es : List Event), framerSchedule frame.length s.events es ∧ s.status.busy = true ∧
      s.fr = ⟨.inPrefix, [], 0⟩ ∧ s.inp.bytes = frame ++ rest ∧ 5 ≤ frame.length ∧
      (decode24 (slice frame 1 4)).toNat = frame.length ∧ frame.length = 5 ∧ s.events.length = 3) ∧
    (∃ (s : State) (frame rest : Bytes) (es : List Event), framerSchedule 4 s.events es ∧ s.status.busy = true ∧
      s.fr = ⟨.inPrefix, [], 0⟩ ∧ s.inp.bytes = frame ++ rest ∧ frame.length = 4 ∧
      (decode24 (slice frame 1 4)).toNat ≤ 4 ∧ s.events = []) :=
  ⟨⟨{ framing .inPrefix [] 0 [1, 0, 0, 5, 0xAA, 1] false with events := List.replicate 5 .framerTurn ++ [.close] },
      [1, 0, 0, 5, 0xAA], [1], [.close], ⟨5, by decide, rfl, .inl rfl⟩, by decide⟩,
    ⟨{ framing .inPrefix [] 0 [1, 0, 0, 5, 0xAA, 1] false with events := List.replicate 3 .framerTurn },
      [1, 0, 0, 5, 0xAA], [1], [], ⟨3, by decide, rfl, .inr rfl⟩, by decide⟩,
    ⟨framing .inPrefix [] 0 [1, 0, 0, 4] false, [1, 0, 0, 4], [], [], ⟨0, by decide, rfl, .inr rfl⟩, by decide⟩⟩

/-- A prefix cut short, with the turns scheduled, and a body cut short, by default. -/
theorem witness_FrameEndsWhenStreamCloses :
    (∃ (s : State) (part : Bytes) (es : List Event), framerSchedule (part.length + 1) s.events es ∧ s.status.busy = true ∧
      s.fr = ⟨.inPrefix, [], 0⟩ ∧ s.inp = ⟨part, true⟩ ∧ part.length < 4 ∧ part.length = 3 ∧ es = [.hostTurn]) ∧
    (∃ (s : State) (part : Bytes) (es : List Event), framerSchedule (part.length + 1) s.events es ∧ s.status.busy = true ∧
      s.fr = ⟨.inPrefix, [], 0⟩ ∧ s.inp = ⟨part, true⟩ ∧ part.length < (decode24 (slice part 1 4)).toNat ∧ part.length = 4 ∧
      s.events = []) :=
  ⟨⟨{ framing .inPrefix [] 0 [1, 0, 0] true with events := List.replicate 4 .framerTurn ++ [.hostTurn] }, [1, 0, 0], [.hostTurn],
      ⟨4, by decide, rfl, .inl rfl⟩, by decide⟩,
    ⟨framing .inPrefix [] 0 [1, 0, 0, 5] true, [1, 0, 0, 5], [], ⟨0, by decide, rfl, .inr rfl⟩, by decide⟩⟩

theorem witness_FrameRestoresEncodedMessage : ∃ (s0 s t0 : State) (rest : Bytes),
    s0.msg.avps ≠ [] ∧ (∀ A ∈ s0.msg.avps, A.wf = true) ∧ totalLength s0.msg < 2 ^ 24 ∧ s0.msg.hdr.commandCode.toNat < 2 ^ 24 ∧
    withinLimit s.params.maxAvps s0.msg.avps.length = true ∧ s.events = [] ∧ s.program = [.command 0x40] ∧ s.status.busy = false ∧
    s.fr = FramerRegs.idle ∧ exec .msgenc s0 = .next t0 ∧ s.inp.bytes = t0.r.buf ++ rest :=
  ⟨withMsg hdrA [avpC], { State.reset with inp := ⟨message60, false⟩, program := [.command 0x40] }, _, [],
    by decide, by decide, by decide, by decide, rfl, rfl, rfl, rfl, rfl, rfl, rfl⟩

theorem witness_StepRunsIssuedCommand :
    (∃ (s : State) (v : Byte) (i : Instr) (rest : List HostAction) (es : List Event), decodeCmd v = .ok i ∧
      s.program = .command v :: rest ∧ s.status.busy = false ∧ s.events = .hostTurn :: es) ∧
    (∃ (s : State) (v : Byte) (i : Instr) (rest : List HostAction), decodeCmd v = .ok i ∧
      s.program = .command v :: rest ∧ s.status.busy = false ∧ s.events = [] ∧ framerEnabled s = false) :=
  ⟨⟨{ State.reset with program := [.command 0x3A], events := [.hostTurn] }, 0x3A, .msgclr, [], [], by decide⟩,
    ⟨{ State.reset with program := [.command 0x01] }, 0x01, .dec24, [], by decide⟩⟩

theorem witness_CommandHeldWhileBusy :
    (∃ (s : State) (v : Byte) (rest : List HostAction) (es : List Event),
      s.program = .command v :: rest ∧ s.status.busy = true ∧ s.events = .hostTurn :: es) ∧
    (∃ (s : State) (v : Byte) (rest : List HostAction),
      s.program = .command v :: rest ∧ s.status.busy = true ∧ s.events = [] ∧ framerEnabled s = false) :=
  ⟨⟨{ framing .inPrefix [] 0 [1] false with program := [.command 0x33], events := [.hostTurn] }, 0x33, [], [], by decide⟩,
    ⟨{ framing .inPrefix [] 0 [] false with program := [.command 0x33] }, 0x33, [], by decide⟩⟩

theorem witness_UnassignedCommandIsIllegal :
    (∃ (s : State) (v : Byte) (rest : List HostAction) (es : List Event), (∀ i : Instr, encode i ≠ v) ∧
      s.program = .command v :: rest ∧ s.status.busy = false ∧ s.events = .hostTurn :: es ∧ v = 0x3B) ∧
    (∃ (s : State) (v : Byte) (rest : List HostAction), (∀ i : Instr, encode i ≠ v) ∧
      s.program = .command v :: rest ∧ s.status.busy = false ∧ s.events = [] ∧ framerEnabled s = false ∧ v = 0x00) :=
  ⟨⟨{ State.reset with program := [.command 0x3B], events := [.hostTurn] }, 0x3B, [], [], by intro i; cases i <;> decide, rfl, rfl, rfl, rfl⟩,
    ⟨{ State.reset with program := [.command 0x00] }, 0x00, [], by intro i; cases i <;> decide, rfl, rfl, rfl, rfl, rfl⟩⟩

/-- A `SET` pending while a frame runs: on the host's turn, and by default while the framer is held. -/
theorem witness_HostWritesOperandRegisters_busy :
    (∃ (s : State) (act : HostAction) (rest : List HostAction) (es : List Event), (∀ v : Byte, act ≠ .command v) ∧
      s.program = act :: rest ∧ s.events = .hostTurn :: es ∧ s.status.busy = true ∧ act = .setU32 269) ∧
    (∃ (s : State) (act : HostAction) (rest : List HostAction), (∀ v : Byte, act ≠ .command v) ∧
      s.program = act :: rest ∧ s.events = [] ∧ framerEnabled s = false ∧ s.status.busy = true) :=
  ⟨⟨{ framing .inBody [1, 0, 0, 9] 5 [7] false with program := [.setU32 269], events := [.hostTurn] }, .setU32 269, [], [],
      by simp, rfl, rfl, rfl, rfl⟩,
    ⟨{ framing .inBody [1, 0, 0, 9] 5 [] false with program := [.setU32 269] }, .setU32 269, [], by simp, rfl, rfl, rfl, rfl⟩⟩

theorem witness_HostWritesOperandRegisters :
    (∃ (s : State) (v : Bytes), withinLimit s.params.maxBuf v.length = true ∧ s.params.maxBuf = some 16777215 ∧ v.length = 16777215) ∧
    (∃ (s : State) (v : Bytes), withinLimit s.params.maxBuf v.length = false ∧ s.params.maxBuf = some 16777215 ∧ v.length = 16777216) ∧
    (∃ (s : State) (v : List Avp), withinLimit s.params.maxAvps v.length = true ∧ s.params.maxAvps = some 1 ∧ v.length = 1) ∧
    (∃ (s : State) (v : List Avp), withinLimit s.params.maxAvps v.length = false ∧ s.params.maxAvps = some 1 ∧ v.length = 2) := by
  obtain ⟨d, hd⟩ := exists_bytes 16777215
  obtain ⟨e, he⟩ := exists_bytes 16777216
  exact ⟨⟨{ State.reset with params := ⟨some 16777215, none⟩ }, d, by rw [hd]; decide, rfl, hd⟩,
    ⟨{ State.reset with params := ⟨some 16777215, none⟩ }, e, by rw [he]; decide, rfl, he⟩,
    ⟨{ State.reset with params := ⟨none, some 1⟩ }, [avpP], by decide⟩, ⟨{ State.reset with params := ⟨none, some 1⟩ }, [avpP, avpQ], by decide⟩⟩

theorem witness_ResetKeepsStreamOnly : ∃ (s : State) (es : List Event), s.events = .reset :: es ∧ s.status.busy = true ∧
    s.inp.bytes ≠ [] := ⟨{ framing .inBody [1, 0, 0, 9] 5 [7] false with events := [.reset] }, [], by decide⟩

theorem witness_StepKeepsInvariant : ∃ s t : State, machineInv s = true ∧ step s = .next t ∧ s.fr.phase = .inBody ∧ t.fr.phase = .idle :=
  ⟨framing .inBody [1, 0, 0, 5] 1 [0xAA] false, _, by decide, rfl, rfl, rfl⟩

theorem witness_EveryCommandCompletesInItsFrame : ∃ i : Instr, i ≠ .frame := ⟨.msgdel, by decide⟩

theorem witness_FailedCommandCommitsNothing :
    (∃ (i : Instr) (s t : State), i ≠ .frame ∧ exec i s = .next t ∧ t.status.code ≠ .ok ∧ t.status.code = .shortMessage) ∧
    (∃ (s t : State), exec .msgenc s = .next t ∧ t.status.code ≠ .ok ∧ t.status.code = .emptyPayload ∧ s.status.defect = true) :=
  ⟨⟨.msgdec, withBuf [], _, by decide, rfl, by decide, rfl⟩,
    ⟨{ withMsg hdrA [avpE0] with status := ⟨.lengthMismatch, false, true⟩ }, _, rfl, by decide, rfl, rfl⟩⟩

theorem witness_OutcomesAreTheListedOnes :
    (∃ (i : Instr) (s t : State), i ≠ .frame ∧ exec i s = .next t) ∧
    (∃ s : State, s.status.busy = true ∧ (framerStep s).status.busy = false) ∧
    (∃ s : State, (framerStep s).status.busy = s.status.busy ∧ s.status.busy = true ∧ s.fr.phase = .inBody) :=
  ⟨⟨.avpdec, withBuf [], _, by decide, rfl⟩, ⟨framing .inPrefix [1] 0 [] true, by decide⟩,
    ⟨framing .inBody [1, 0, 0, 9] 5 [7] false, by decide⟩⟩

theorem witness_CommandsIgnorePreviousResults : ∃ (s : State) (previous : ResultRegs), previous ≠ s.r :=
  ⟨State.reset, { ResultRegs.reset with u32 := 60 }, by decide⟩

theorem witness_DefectIsSticky :
    (∃ (i : Instr) (s t : State), exec i s = .next t ∧ s.status.defect = true ∧ i = .msgenc) ∧
    (∃ s t : State, step s = .next t ∧ s.status.defect = true ∧ s.events = [.reset] ∧ t.status.defect = false) ∧
    (∃ s t : State, step s = .next t ∧ s.status.defect = true ∧ s.program = [.command 0x31]) :=
  ⟨⟨.msgenc, { withMsg hdrA [avpP] with status := ⟨.ok, false, true⟩ }, _, rfl, rfl, rfl⟩,
    ⟨{ State.reset with status := ⟨.ok, false, true⟩, events := [.reset] }, _, rfl, rfl, rfl, rfl⟩,
    ⟨{ State.reset with status := ⟨.ok, false, true⟩, program := [.command 0x31] }, _, rfl, rfl, rfl⟩⟩

/-- The step that sets DEFECT: the host's pending MSGENC on M-ENC-7's total 2^24, with DEFECT clear before it. -/
theorem witness_DefectIsSticky_set : ∃ s t : State, step s = .next t ∧ s.status.defect = false ∧ t.status.defect = true ∧
    s.events = [.hostTurn] := by
  obtain ⟨d, hd⟩ := exists_bytes 16777185
  have hl : totalLength ⟨hdrA, [⟨1, 0, 0, d⟩]⟩ = 16777216 := by rw [totalLength_one _ hd]; decide
  have hn := ne_nil_of_length hd (by decide)
  have he : msgEncode ⟨hdrA, [⟨1, 0, 0, d⟩]⟩ = .error .lengthMismatch := by
    unfold msgEncode
    rw [hl]
    simp [hn]
  refine ⟨{ withMsg hdrA [⟨1, 0, 0, d⟩] with program := [.command 0x31], events := [.hostTurn] },
    raise .lengthMismatch (setDefect { withMsg hdrA [⟨1, 0, 0, d⟩] with cmd := 0x31 }), ?_, rfl, rfl, rfl⟩
  change execMsgenc { withMsg hdrA [⟨1, 0, 0, d⟩] with cmd := 0x31 } = _
  simp only [execMsgenc, withMsg, he, conclude]

theorem witness_MessageLengthWriters :
    (∃ (i : Instr) (s t : State), exec i s = .next t ∧ i = .msgdec ∧ t.status.code = .ok) ∧
    (∃ (s t : State), exec .msgenc s = .next t ∧ t.status.code = .emptyPayload) ∧
    (∃ s : State, s.status.busy = true ∧ (framerStep s).status.busy = false ∧ (framerStep s).status.code = .ok) :=
  ⟨⟨.msgdec, withBuf message60, _, rfl, rfl, rfl⟩, ⟨withMsg hdrA [avpE0], _, rfl, rfl⟩, ⟨oneByteShort, rfl, rfl, rfl⟩⟩

theorem witness_EventsTakeEffect :
    (∃ (s : State) (es : List Event), s.events = .framerTurn :: es ∧ framerEnabled s = true) ∧
    (∃ s : State, s.events = [] ∧ framerEnabled s = true) ∧
    (∃ (s : State) (bs : Bytes) (es : List Event), s.events = .offer bs :: es ∧ s.inp.closed = false ∧ bs ≠ [] ∧ s.inp.bytes ≠ []) ∧
    (∃ (s : State) (bs : Bytes) (es : List Event), s.events = .offer bs :: es ∧ s.inp.closed = true ∧ bs ≠ []) ∧
    (∃ (s : State) (es : List Event), s.events = .close :: es ∧ s.inp.bytes ≠ []) :=
  ⟨⟨{ framing .inPrefix [] 0 [1] false with events := [.framerTurn] }, [], by decide⟩, ⟨framing .inPrefix [] 0 [1] false, by decide⟩,
    ⟨{ framing .inPrefix [] 0 [1] false with events := [.offer [0, 0]] }, [0, 0], [], by decide⟩,
    ⟨{ framing .inPrefix [] 0 [] true with events := [.offer [0, 0]] }, [0, 0], [], by decide⟩,
    ⟨{ framing .inPrefix [] 0 [1] false with events := [.close] }, [], by decide⟩⟩

end Sys2Proof.Tests
end

section
/-! The buffer primitives of R14 and R15: the big-endian value of a byte sequence by its first byte, as a sum and as a bound, the bytes
`be` writes, and what a write inside the buffer leaves and reads back (O1). -/

namespace Sys2Proof.Machine

/-! ## The big-endian value of a byte sequence -/

theorem bigEndian_append_singleton (B : Bytes) (b : Byte) : bigEndian (B ++ [b]) = bigEndian B * 256 + b.toNat := by
  simp [bigEndian]

/-- The first byte is the most significant one (R14). -/
theorem bigEndian_cons (b : Byte) (B : Bytes) : bigEndian (b :: B) = b.toNat * 256 ^ B.length + bigEndian B := by
  induction B using List.reverseRecOn with
  | nil => simp [bigEndian]
  | append_singleton B c ih =>
    rw [← List.cons_append, bigEndian_append_singleton, bigEndian_append_singleton, ih, List.length_append,
      List.length_singleton]
    ring

theorem bigEndian_lt (B : Bytes) : bigEndian B < 256 ^ B.length := by
  induction B with
  | nil => simp [bigEndian]
  | cons b B ih =>
    have hb : b.toNat + 1 ≤ 256 := b.isLt
    calc bigEndian (b :: B)
        = b.toNat * 256 ^ B.length + bigEndian B := bigEndian_cons b B
      _ < (b.toNat + 1) * 256 ^ B.length := by rw [Nat.add_one_mul]; omega
      _ ≤ 256 * 256 ^ B.length := Nat.mul_le_mul_right _ hb
      _ = 256 ^ (b :: B).length := by rw [List.length_cons, Nat.pow_succ']

theorem bigEndian_eq_sum (B : Bytes) :
    bigEndian B = ((List.range B.length).map fun i => (B.getD i 0).toNat * 256 ^ (B.length - 1 - i)).sum := by
  induction B with
  | nil => rfl
  | cons b B ih =>
    have hexp : ∀ i, B.length - 1 - i = B.length - (i + 1) := by omega
    simp [bigEndian_cons, ih, List.range_succ_eq_map, Function.comp_def, hexp]

/-! ## A read (R14) -/

theorem slice_getD (B : Bytes) (off : Nat) {n i : Nat} (hi : i < n) :
    (slice B off (off + n)).getD i 0 = B.getD (off + i) 0 := by
  simp [slice, List.getD_eq_getElem?_getD, hi]

theorem slice_length_of_le {B : Bytes} {off n : Nat} (h : off + n ≤ B.length) : (slice B off (off + n)).length = n := by
  rw [slice_length, Nat.min_eq_left h, Nat.add_sub_cancel_left]

theorem memRead_eq_sum {B : Bytes} {off n : Nat} (h : off + n ≤ B.length) :
    memRead B off n = ((List.range n).map fun i => (B.getD (off + i) 0).toNat * 256 ^ (n - 1 - i)).sum := by
  rw [memRead, bigEndian_eq_sum, slice_length_of_le h]
  congr 1
  apply List.map_congr_left
  intro i hi
  rw [slice_getD B off (List.mem_range.mp hi)]

theorem memRead_lt {B : Bytes} {off n : Nat} (h : off + n ≤ B.length) : memRead B off n < 256 ^ n := by
  have hlt := bigEndian_lt (slice B off (off + n))
  rwa [slice_length_of_le h] at hlt

/-! ## A write (R15), and reading it back -/

theorem be_eq_map_range (v n : Nat) :
    be v n = (List.range n).map fun i => BitVec.ofNat 8 (v / 256 ^ (n - 1 - i) % 256) := by
  induction n with
  | zero => rfl
  | succ n ih =>
    have hbyte : ∀ m : Nat, BitVec.ofNat 8 (m % 256) = BitVec.ofNat 8 m := fun m => by
      apply BitVec.eq_of_toNat_eq
      simp
    have hexp : ∀ i, n - 1 - i = n - (i + 1) := by omega
    simp [be, ih, List.range_succ_eq_map, Function.comp_def, hexp, hbyte]

/-- The bytes written for v have the value of v's low n bytes (R15, R62). -/
theorem bigEndian_be (v n : Nat) : bigEndian (be v n) = v % 256 ^ n := by
  induction n with
  | zero => simp [be, bigEndian, Nat.mod_one]
  | succ n ih =>
    rw [be, bigEndian_cons, be_length, ih, BitVec.toNat_ofNat, Nat.mod_pow_succ (b := 256), Nat.add_comm, Nat.mul_comm]

theorem memWrite_eq (B : Bytes) (off n v : Nat) : memWrite B off n v = B.take off ++ be v n ++ B.drop (off + n) := by
  simp [memWrite, slice]

theorem slice_memWrite_same {B : Bytes} {off : Nat} (n v : Nat) (h : off ≤ B.length) :
    slice (memWrite B off n v) off (off + n) = be v n := by
  have hoff : (B.take off).length = off := List.length_take_of_le h
  have hmid := slice_append_right (B.take off) (be v n) 0 n
  rw [hoff, Nat.add_zero] at hmid
  rw [memWrite_eq, slice_append_left _ _ (by simp [hoff]), hmid, slice_zero]
  exact List.take_of_length_le (be_length v n).le

theorem memRead_memWrite_same {B : Bytes} {off : Nat} (n v : Nat) (h : off ≤ B.length) :
    memRead (memWrite B off n v) off n = v % 256 ^ n := by
  rw [memRead, slice_memWrite_same n v h, bigEndian_be]

/-- Settles O1: a read is the sum of its bytes weighted from the first one down, and `be`, by recursion on the width, writes the bytes
whose value that read gives back. -/
theorem bufferPrimitivesAreBigEndian : Obligations.BufferPrimitivesAreBigEndian :=
  ⟨fun _ _ _ h => ⟨memRead_eq_sum h, memRead_lt h⟩, be_eq_map_range,
    fun B off n v h => ⟨memWrite_eq B off n v, memRead_memWrite_same n v (by omega)⟩⟩

end Sys2Proof.Machine
end

section
/-! The padding function of R112: no multiple of 4 lies between L and `L + pad4 L` (O5). -/

namespace Sys2Proof.Machine

/-- `L + pad4 L` is at most every multiple of 4 from L up: it is a multiple of 4 itself and exceeds L by less than 4. -/
theorem add_pad4_le_of_multiple {L m : Nat} (hge : L ≤ m) (hmul : m % 4 = 0) : L + pad4 L ≤ m := by
  have haligned := pad4_aligned L
  have hrange := pad4_le L
  omega

/-- Settles O5: range and alignment are the model's laws of `pad4`, and two multiples of 4 less than 4 apart are equal. -/
theorem pad4IsLeastPadding : Obligations.Pad4IsLeastPadding :=
  fun L => ⟨rfl, pad4_le L, pad4_aligned L, fun _ => add_pad4_le_of_multiple⟩

end Sys2Proof.Machine
end

section
/-! The message assembler: the search by Code of R206 as the library's `List.findIdx?` (O32), the total length of R180 by recursion on
the AVPs (O15), and the length test of R182 (O19). -/

namespace Sys2Proof.Machine

/-! ## The search by Code (R206) -/

theorem firstIndex_eq_findIdx? (S : List Avp) (c : U32) : firstIndex S c = S.findIdx? fun A => A.code = c := by
  induction S with
  | nil => rfl
  | cons A S ih => simp [firstIndex, List.findIdx?_cons, ih]

theorem firstIndex_eq_none_iff (S : List Avp) (c : U32) : firstIndex S c = none ↔ ∀ A ∈ S, A.code ≠ c := by
  simp [firstIndex_eq_findIdx?, List.findIdx?_eq_none_iff]

theorem firstIndex_eq_some_iff (S : List Avp) (c : U32) (i : Nat) :
    firstIndex S c = some i ↔
      ∃ A, S[i]? = some A ∧ A.code = c ∧ ∀ (j : Nat) (A' : Avp), j < i → S[j]? = some A' → A'.code ≠ c := by
  rw [firstIndex_eq_findIdx?, List.findIdx?_eq_some_iff_getElem]
  constructor
  · rintro ⟨hi, hcode, hbefore⟩
    refine ⟨S[i], List.getElem?_eq_getElem hi, of_decide_eq_true hcode, fun j A' hj hA' => ?_⟩
    obtain ⟨_, rfl⟩ := List.getElem?_eq_some_iff.mp hA'
    simpa using hbefore j hj
  · rintro ⟨A, hA, hcode, hbefore⟩
    obtain ⟨hi, rfl⟩ := List.getElem?_eq_some_iff.mp hA
    refine ⟨hi, decide_eq_true hcode, fun j hj => ?_⟩
    simpa using hbefore j _ hj (List.getElem?_eq_getElem (hj.trans hi))

/-- Settles O32: `firstIndex` is `List.findIdx?` on the Code, whose characterisation reads the records before the match by index. -/
theorem firstIndexIsLeastMatch : Obligations.FirstIndexIsLeastMatch :=
  fun S c => ⟨firstIndex_eq_none_iff S c, firstIndex_eq_some_iff S c⟩

/-! ## The total length (R180) -/

theorem totalLength_nil (h : Header) : totalLength ⟨h, []⟩ = 20 := rfl

theorem totalLength_cons (h : Header) (A : Avp) (S : List Avp) :
    totalLength ⟨h, A :: S⟩ = totalLength ⟨h, S⟩ + avpPadded A := by
  simp only [totalLength, List.map_cons, List.sum_cons]
  omega

/-- Both header lengths are multiples of 4, so an AVP with empty Data has no padding. -/
theorem avpPadded_of_data_nil {A : Avp} (hd : A.data = []) : avpPadded A = hdrlen A.flags := by
  have hlen : avpLength A = hdrlen A.flags := by simp [avpLength, hd]
  have hpad : pad4 (hdrlen A.flags) = 0 := by
    unfold hdrlen
    split <;> rfl
  rw [avpPadded, hlen, hpad, Nat.add_zero]

/-- Settles O15: each AVP adds its padded length, which is the header length when its Data is empty. -/
theorem totalLengthSumsPaddedAvps : Obligations.TotalLengthSumsPaddedAvps := by
  refine ⟨totalLength_nil, totalLength_cons, fun h A hd => ?_⟩
  rw [totalLength_cons, totalLength_nil, avpPadded_of_data_nil hd]
  rfl

/-! ## The length test (R182) -/

theorem msgDecode_of_short (limit : Option Nat) {B : Bytes} (h : B.length < 28) :
    msgDecode limit B = .error .shortMessage :=
  if_pos h

/-- MSGDEC on a buffer that does not decode raises the decoder's error, and MSG is as it was (R193). -/
theorem exec_msgdec_of_error {s : State} {e : Code} (h : msgDecode s.params.maxAvps s.a.buf = .error e) :
    exec .msgdec s = .next (raise e s) := by
  change execMsgdec s = _
  rw [execMsgdec, h]
  rfl

/-- Settles O19: the length test is `msgDecode`'s first, and MSGDEC raises the error it answers. -/
theorem msgdecRejectsShortBuffer : Obligations.MsgdecRejectsShortBuffer :=
  ⟨fun limit _ => msgDecode_of_short limit, fun _ h => exec_msgdec_of_error (msgDecode_of_short _ h)⟩

end Sys2Proof.Machine
end

section
/-! How a command ends when its computation is known (R21, R270), and the 24-bit codec both ways (R110, R111): O2, O3, O4. -/

namespace Sys2Proof.Machine

/-- A command whose computation succeeds commits what it makes of the answer (R21). -/
theorem conclude_map_of_ok {α : Type} {res : Except Code α} {x : α} (f : α → ResultRegs × Message) (s : State)
    (h : res = .ok x) : conclude (res.map f) s = .next (succeed (f x).1 (f x).2 s) := by
  rw [h]; rfl

/-- A command whose computation fails raises its error (R270). -/
theorem conclude_map_of_error {α : Type} {res : Except Code α} {e : Code} (f : α → ResultRegs × Message) (s : State)
    (h : res = .error e) : conclude (res.map f) s = .next (raise e s) := by
  rw [h]; rfl

theorem dec24_of_three (x y z : Byte) : dec24 [x, y, z] = .ok (0#8 ++ (x ++ y ++ z)) := by
  rw [← decode24_three]; rfl

theorem dec24_of_length_ne {B : Bytes} (h : B.length ≠ 3) : dec24 B = .error .invalidWidth := if_pos h

/-- Settles O2: three bytes decode by `dec24_of_three`, and the length test is the only error. -/
theorem dec24DecodesThreeBytes : Obligations.Dec24DecodesThreeBytes := by
  refine ⟨rfl, fun s x y z hbuf => ?_, fun s hlen => conclude_map_of_error _ s (dec24_of_length_ne hlen)⟩
  have hdec : dec24 s.a.buf = .ok (0#8 ++ (x ++ y ++ z)) := by rw [hbuf, dec24_of_three]
  exact conclude_map_of_ok _ s hdec

/-- Settles O3: ENC24 raises nothing, and its three bytes are those of `encode24_bytes`. -/
theorem enc24TruncatesToLow24Bits : Obligations.Enc24TruncatesToLow24Bits := by
  refine ⟨rfl, fun s => ?_⟩
  rw [← encode24_bytes]
  rfl

/-- Encoding drops bits 31:24 and decoding fills them with 0 (R110, R111). -/
theorem decode24_encode24 (v : U32) : decode24 (encode24 v) = BitVec.ofNat 32 (v.toNat % 2 ^ 24) := by
  rw [encode24_bytes, decode24_three, extract_join_three, extract_low]

theorem decode24_encode24_toNat (v : U32) : (decode24 (encode24 v)).toNat = v.toNat % 2 ^ 24 := by
  rw [decode24_encode24, BitVec.toNat_ofNat, Nat.mod_mod_of_dvd' (by decide)]

theorem encode24_decode24 {B : Bytes} (h : B.length = 3) : encode24 (decode24 B) = B := by
  match B, h with
  | [x, y, z], _ =>
    obtain ⟨hx, hy, hz⟩ := split_join_three x y z
    rw [decode24_three, encode24_bytes, hx, hy, hz]

/-- Settles O4: the two round trips of the 24-bit codec. -/
theorem integer24RoundTrip : Obligations.Integer24RoundTrip :=
  ⟨fun _ => encode24_decode24, decode24_encode24_toNat⟩

end Sys2Proof.Machine
end

section
/-! The AVP codec (42_avp_codec.md): the payload test over a buffer split after its AVP header (R157, R158), the decoder over the bytes the
encoder writes, and AVPDEC and AVPENC: O10 to O14. -/

namespace Sys2Proof.Machine

/-! ## Decoding -/

/-- The declared Length L against the header X and the bytes after it: the payload is what L covers beyond X (R157, R158). -/
theorem avpPayload_append (X rest : Bytes) (code : U32) (f : Byte) (vid : U32) (L : Nat) :
    avpPayload (X ++ rest) code f vid X.length L =
      if X.length ≤ L ∧ L ≤ X.length + rest.length then
        .ok (⟨code, f, vid, rest.take (L - X.length)⟩, BitVec.ofNat 32 L)
      else .error .payloadTruncated := by
  unfold avpPayload
  by_cases h : X.length ≤ L ∧ L ≤ X.length + rest.length
  · have hs : slice (X ++ rest) X.length L = rest.take (L - X.length) := by
      have := slice_append_right X rest 0 (L - X.length)
      rwa [Nat.add_zero, Nat.add_sub_cancel' h.1, slice_zero] at this
    rw [if_neg (by simp; omega), if_pos h, hs]
  · rw [if_pos (by simp; omega), if_neg h]

/-- V clear: the whole answer of the decoder on eight bytes and what follows (R154, R156 to R158). -/
theorem avpDecode_eq_of_plain (c0 c1 c2 c3 f l0 l1 l2 : Byte) (rest : Bytes) (hf : vBit f = false) :
    avpDecode ([c0, c1, c2, c3, f, l0, l1, l2] ++ rest) =
      if 8 ≤ (l0 ++ l1 ++ l2).toNat ∧ (l0 ++ l1 ++ l2).toNat ≤ 8 + rest.length then
        .ok (⟨c0 ++ c1 ++ c2 ++ c3, f, 0, rest.take ((l0 ++ l1 ++ l2).toNat - 8)⟩, 0#8 ++ (l0 ++ l1 ++ l2))
      else .error .payloadTruncated := by
  rw [avpDecode_plain _ _ _ _ _ _ _ _ _ hf, ← ofNat_join]
  exact avpPayload_append [c0, c1, c2, c3, f, l0, l1, l2] rest _ f 0 _

/-- V set: the whole answer of the decoder on twelve bytes and what follows (R154, R155, R157, R158). -/
theorem avpDecode_eq_of_vendor (c0 c1 c2 c3 f l0 l1 l2 v0 v1 v2 v3 : Byte) (rest : Bytes) (hf : vBit f = true) :
    avpDecode ([c0, c1, c2, c3, f, l0, l1, l2, v0, v1, v2, v3] ++ rest) =
      if 12 ≤ (l0 ++ l1 ++ l2).toNat ∧ (l0 ++ l1 ++ l2).toNat ≤ 12 + rest.length then
        .ok (⟨c0 ++ c1 ++ c2 ++ c3, f, v0 ++ v1 ++ v2 ++ v3, rest.take ((l0 ++ l1 ++ l2).toNat - 12)⟩,
          0#8 ++ (l0 ++ l1 ++ l2))
      else .error .payloadTruncated := by
  rw [avpDecode_vendor _ _ _ _ _ _ _ _ _ _ _ _ _ hf, ← ofNat_join]
  exact avpPayload_append [c0, c1, c2, c3, f, l0, l1, l2, v0, v1, v2, v3] rest _ f _ _

theorem exec_avpdec_of_ok {s : State} {A : Avp} {L : U32} (h : avpDecode s.a.buf = .ok (A, L)) :
    exec .avpdec s = .next (succeed { ResultRegs.reset with avp := A, u32 := L } s.msg s) :=
  conclude_map_of_ok _ s h

theorem exec_avpdec_of_error {s : State} {e : Code} (h : avpDecode s.a.buf = .error e) :
    exec .avpdec s = .next (raise e s) :=
  conclude_map_of_error _ s h

/-- Settles O10: each clause is one answer of the decoder, in the order of its checks. -/
theorem avpdecChecksThenDecodes : Obligations.AvpdecChecksThenDecodes := by
  refine ⟨rfl, fun s hlen => exec_avpdec_of_error (avpDecode_short _ hlen), ?_, ?_, ?_⟩
  · intro s c0 c1 c2 c3 f l0 l1 l2 rest hbuf hf hrest
    exact exec_avpdec_of_error (hbuf ▸ avpDecode_shortVendor _ _ _ _ _ _ _ _ _ hf hrest)
  · intro s c0 c1 c2 c3 f l0 l1 l2 rest hbuf hf
    have hdec := avpDecode_eq_of_plain c0 c1 c2 c3 f l0 l1 l2 rest hf
    rw [← hbuf] at hdec
    split at hdec
    · rw [if_pos ‹_›]; exact exec_avpdec_of_ok hdec
    · rw [if_neg ‹_›]; exact exec_avpdec_of_error hdec
  · intro s c0 c1 c2 c3 f l0 l1 l2 v0 v1 v2 v3 rest hbuf hf
    have hdec := avpDecode_eq_of_vendor c0 c1 c2 c3 f l0 l1 l2 v0 v1 v2 v3 rest hf
    rw [← hbuf] at hdec
    split at hdec
    · rw [if_pos ‹_›]; exact exec_avpdec_of_ok hdec
    · rw [if_neg ‹_›]; exact exec_avpdec_of_error hdec

/-! ## The round trip -/

/-- The Length field written for an AVP, read back (R161, R154). -/
theorem lengthField_toNat {A : Avp} (h : avpLength A < 2 ^ 24) :
    ((BitVec.ofNat 32 (avpLength A)).extractLsb' 16 8 ++ (BitVec.ofNat 32 (avpLength A)).extractLsb' 8 8
      ++ (BitVec.ofNat 32 (avpLength A)).extractLsb' 0 8 : BitVec 24).toNat = avpLength A := by
  rw [extract_join_three, BitVec.extractLsb'_toNat, BitVec.toNat_ofNat]
  omega

theorem zero_append_eq_ofNat {x : BitVec 24} {n : Nat} (h : x.toNat = n) : (0#8 ++ x : U32) = BitVec.ofNat 32 n := by
  rw [← h, ofNat_toNat_append]

/-- Header and Data, with anything after them, decode to the record: the Length says where the Data ends (R155 to R158). A record with V
clear comes back only where its VendorID is 0 (D7). -/
theorem avpDecode_header_data (A : Avp) (rest : Bytes) (hlen : avpLength A < 2 ^ 24)
    (hvid : vBit A.flags = true ∨ A.vendorID = 0) :
    avpDecode (avpHeader A ++ A.data ++ rest) = .ok (A, BitVec.ofNat 32 (avpLength A)) := by
  have hfield := lengthField_toNat hlen
  have hval := zero_append_eq_ofNat hfield
  rw [avpHeader_bytes]
  by_cases hv : vBit A.flags = true
  · have hL : avpLength A = 12 + A.data.length := by simp [avpLength, hdrlen, hv]
    rw [if_pos hv, List.append_assoc]
    refine (avpDecode_eq_of_vendor _ _ _ _ _ _ _ _ _ _ _ _ (A.data ++ rest) hv).trans ?_
    rw [hfield, hval, if_pos (by simp; omega), extract_join_four, extract_join_four, List.take_left' (by omega)]
  · have hL : avpLength A = 8 + A.data.length := by simp [avpLength, hdrlen, hv]
    rw [if_neg hv, List.append_nil, List.append_assoc, avpDecode_eq_of_plain _ _ _ _ _ _ _ _ _ (by simpa using hv),
      hfield, hval, if_pos (by simp; omega), extract_join_four, ← hvid.resolve_left hv, List.take_left' (by omega)]

theorem avp_wf_iff (A : Avp) :
    A.wf = true ↔ 1 ≤ A.data.length ∧ avpLength A ≤ 2 ^ 24 - 1 ∧ (vBit A.flags = true ∨ A.vendorID = 0) := by
  simp [Avp.wf, and_assoc]

/-- The encoded bytes of a well-formed record, padding and anything after it included, decode to the record. -/
theorem avpDecode_avpWire {A : Avp} (h : A.wf = true) (rest : Bytes) :
    avpDecode (avpWire A ++ rest) = .ok (A, BitVec.ofNat 32 (avpLength A)) := by
  obtain ⟨-, hlen, hvid⟩ := (avp_wf_iff A).mp h
  rw [avpWire, List.append_assoc]
  exact avpDecode_header_data A _ (by omega) hvid

theorem avpEncode_of_data {A : Avp} (h : A.data ≠ []) : avpEncode A = .ok (avpWire A, avpLength A) :=
  if_neg (by simpa using h)

theorem avpEncode_of_empty {A : Avp} (h : A.data = []) : avpEncode A = .error .emptyPayload := if_pos (by simp [h])

theorem data_ne_nil_of_wf {A : Avp} (h : A.wf = true) : A.data ≠ [] := by
  obtain ⟨hdata, -, -⟩ := (avp_wf_iff A).mp h
  exact List.ne_nil_of_length_pos hdata

/-- Settles O13: the Length field stops the payload before the padding, so header and Data alone decide the answer. -/
theorem avpRoundTrip : Obligations.AvpRoundTrip := by
  intro A hwf
  refine ⟨avpWire A, BitVec.ofNat 32 (avpLength A), avpEncode_of_data (data_ne_nil_of_wf hwf), ?_, avpDecode_avpWire hwf⟩
  obtain ⟨-, hlen, -⟩ := (avp_wf_iff A).mp hwf
  rw [BitVec.toNat_ofNat]
  omega

/-! ## Encoding -/

theorem ofNat_extract_of_le (L n : Nat) (h : n + 8 ≤ 24) :
    (BitVec.ofNat 32 L).extractLsb' n 8 = (BitVec.ofNat 24 L).extractLsb' n 8 := by
  rw [← ofNat_mod_div_eq_extract _ n h, ← ofNat_div_eq_extract, BitVec.toNat_ofNat, BitVec.toNat_ofNat,
    Nat.mod_mod_of_dvd _ (by decide)]

/-- The bytes an encode writes are those of 42_avp_codec.md section 3. -/
theorem avpWire_eq_expectedAvpBytes (A : Avp) : avpWire A = expectedAvpBytes A (avpLength A) := by
  rw [avpWire, avpHeader_bytes, ofNat_extract_of_le _ 16 (by omega), ofNat_extract_of_le _ 8 (by omega),
    ofNat_extract_of_le _ 0 (by omega)]
  rfl

theorem exec_avpenc_of_error {s : State} {e : Code} (h : (avpEncode s.a.avp).bind (avpencFit s.params.maxBuf) = .error e) :
    exec .avpenc s = .next (raise e s) :=
  conclude_map_of_error _ s h

theorem exec_avpenc_of_ok {s : State} {p : Bytes × Nat}
    (h : (avpEncode s.a.avp).bind (avpencFit s.params.maxBuf) = .ok p) :
    exec .avpenc s = .next (succeed { ResultRegs.reset with buf := p.1, u32 := BitVec.ofNat 32 p.2 } s.msg s) :=
  conclude_map_of_ok _ s h

/-- The capacity test on a non-empty record is one on its padded length (R164). -/
theorem avpEncode_bind_fit {A : Avp} (limit : Option Nat) (h : A.data ≠ []) :
    (avpEncode A).bind (avpencFit limit) =
      if withinLimit limit (avpPadded A) then .ok (avpWire A, avpLength A) else .error .capacityExceeded := by
  rw [avpEncode_of_data h, ← avpWire_length]
  rfl

/-- Settles O11: EmptyPayload before the capacity test, and otherwise the bytes of `avpWire_eq_expectedAvpBytes`. -/
theorem avpencWritesPaddedBytes : Obligations.AvpencWritesPaddedBytes := by
  refine ⟨rfl, ?_⟩
  rintro s A L rfl hL
  obtain rfl : L = avpLength s.a.avp := hL
  refine ⟨fun hd => exec_avpenc_of_error (by rw [avpEncode_of_empty hd]; rfl), fun hd hfull => ?_, fun hd hfit => ?_⟩
  · refine exec_avpenc_of_error ((avpEncode_bind_fit _ hd).trans (if_neg ?_))
    rw [Bool.not_eq_true]
    exact hfull
  · rw [← avpWire_eq_expectedAvpBytes]
    exact exec_avpenc_of_ok ((avpEncode_bind_fit _ hd).trans (if_pos hfit))

/-- Settles O12: the wire length is `avpPadded`, a multiple of 4 that exceeds the Length by `pad4`. -/
theorem avpPaddingLaw : Obligations.AvpPaddingLaw := by
  refine fun A => ⟨avpEncode_of_empty, fun hd => ⟨avpWire A, avpEncode_of_data hd, ?_⟩⟩
  have hpad := pad4_le (avpLength A)
  rw [avpWire_length]
  refine ⟨avpPadded_aligned A, ?_, ?_⟩ <;> simp only [avpPadded] <;> omega

/-- With V clear neither the Length nor the bytes mention the VendorID (R162). -/
theorem avpEncode_vendorID_of_plain {A : Avp} (h : vBit A.flags = false) (v : U32) :
    avpEncode { A with vendorID := v } = avpEncode A := by
  have hheader : avpHeader { A with vendorID := v } = avpHeader A := by
    simp [avpHeader, h, avpLength]
  have hwire : avpWire { A with vendorID := v } = avpWire A := by
    rw [avpWire, hheader]; rfl
  simp only [avpEncode, hwire]
  rfl

/-- Settles O14: the decoder's answers at a Length of 8 and of 12, and the encoder's silence about the VendorID. -/
theorem avpEmptyDataAndVendorEdges : Obligations.AvpEmptyDataAndVendorEdges := by
  refine ⟨?_, ?_, fun A hf v => avpEncode_vendorID_of_plain hf v⟩
  · intro s c0 c1 c2 c3 f rest hf hbuf
    refine exec_avpdec_of_ok (hbuf ▸ (avpDecode_eq_of_plain c0 c1 c2 c3 f 0 0 8 rest hf).trans (if_pos ?_))
    exact ⟨le_rfl, Nat.le_add_right 8 _⟩
  · intro s c0 c1 c2 c3 f v0 v1 v2 v3 rest hf hbuf
    refine exec_avpdec_of_ok (hbuf ▸ (avpDecode_eq_of_vendor c0 c1 c2 c3 f 0 0 12 v0 v1 v2 v3 rest hf).trans (if_pos ?_))
    exact ⟨le_rfl, Nat.le_add_right 12 _⟩

end Sys2Proof.Machine
end

section
/-! The header codec (41_header_codec.md): the seven fields from and to the 20-byte layout, and the 32-bit words of 20_memory.md section 2:
O6 to O9. -/

namespace Sys2Proof.Machine

/-- Settles O6: the decoder's fields over literal bytes, and ShortBuffer below 20 of them. -/
theorem hdrdecReadsFixedLayout : Obligations.HdrdecReadsFixedLayout := by
  refine ⟨rfl, ?_, fun s hlen => conclude_map_of_error _ s (headerDecode_short _ hlen)⟩
  intro s b0 b1 b2 b3 b4 b5 b6 b7 b8 b9 b10 b11 b12 b13 b14 b15 b16 b17 b18 b19 rest hbuf
  exact conclude_map_of_ok _ s
    (hbuf ▸ headerDecode_bytes b0 b1 b2 b3 b4 b5 b6 b7 b8 b9 b10 b11 b12 b13 b14 b15 b16 b17 b18 b19 rest)

/-- The 20 bytes of a header (R81, R133). -/
theorem headerEncode_bytes (h : Header) :
    headerEncode h =
      [h.version,
       h.messageLength.extractLsb' 16 8, h.messageLength.extractLsb' 8 8, h.messageLength.extractLsb' 0 8,
       h.commandFlags,
       h.commandCode.extractLsb' 16 8, h.commandCode.extractLsb' 8 8, h.commandCode.extractLsb' 0 8,
       h.applicationID.extractLsb' 24 8, h.applicationID.extractLsb' 16 8,
       h.applicationID.extractLsb' 8 8, h.applicationID.extractLsb' 0 8,
       h.hopByHopID.extractLsb' 24 8, h.hopByHopID.extractLsb' 16 8,
       h.hopByHopID.extractLsb' 8 8, h.hopByHopID.extractLsb' 0 8,
       h.endToEndID.extractLsb' 24 8, h.endToEndID.extractLsb' 16 8,
       h.endToEndID.extractLsb' 8 8, h.endToEndID.extractLsb' 0 8] := by
  simp only [headerEncode, encode24_bytes, be_four, List.cons_append, List.nil_append]

/-- Settles O7: HDRENC raises nothing and writes `headerEncode_bytes`. -/
theorem hdrencWritesFixedLayout : Obligations.HdrencWritesFixedLayout := by
  refine ⟨rfl, ?_⟩
  rintro s h rfl
  rw [← headerEncode_bytes]
  rfl

/-! ## Round trips -/

theorem header_wf_iff (h : Header) : h.wf = true ↔ h.messageLength.toNat < 2 ^ 24 ∧ h.commandCode.toNat < 2 ^ 24 := by
  simp [Header.wf]

theorem headerDecode_headerEncode_of_wf {h : Header} (hwf : h.wf = true) (rest : Bytes) :
    headerDecode (headerEncode h ++ rest) = .ok h := by
  obtain ⟨hml, hcc⟩ := (header_wf_iff h).mp hwf
  rw [headerDecode_headerEncode, ofNat_mod_of_lt _ hml, ofNat_mod_of_lt _ hcc]

theorem zero_append_join_lt (x y z : Byte) : (0#8 ++ (x ++ y ++ z) : U32).toNat < 2 ^ 24 := by
  rw [zero_append_toNat]; exact (x ++ y ++ z).isLt

/-- Joining four bytes and splitting them again. -/
theorem split_join_four (w x y z : Byte) :
    ((w ++ x ++ y ++ z : U32).extractLsb' 24 8 = w) ∧ ((w ++ x ++ y ++ z : U32).extractLsb' 16 8 = x)
      ∧ ((w ++ x ++ y ++ z : U32).extractLsb' 8 8 = y) ∧ ((w ++ x ++ y ++ z : U32).extractLsb' 0 8 = z) := by
  refine ⟨?_, ?_, ?_, ?_⟩ <;>
  · apply BitVec.eq_of_getLsbD_eq
    intro i hi
    simp only [BitVec.getLsbD_append, BitVec.getLsbD_extractLsb']
    interval_cases i <;> simp

/-- Every 20 bytes are the encoding of the header they decode to (R136). -/
theorem headerEncode_of_twenty {X : Bytes} (h : X.length = 20) :
    ∃ H, headerDecode X = .ok H ∧ H.wf = true ∧ headerEncode H = X := by
  match X, h with
  | [b0, b1, b2, b3, b4, b5, b6, b7, b8, b9, b10, b11, b12, b13, b14, b15, b16, b17, b18, b19], _ =>
    have hdec := headerDecode_bytes b0 b1 b2 b3 b4 b5 b6 b7 b8 b9 b10 b11 b12 b13 b14 b15 b16 b17 b18 b19 []
    refine ⟨_, hdec, (header_wf_iff _).mpr ⟨zero_append_join_lt _ _ _, zero_append_join_lt _ _ _⟩, ?_⟩
    rw [headerEncode_bytes]
    simp only [split_join_three, split_join_four]

/-- Settles O8: encode then decode by the fields, decode then encode by the bytes. -/
theorem headerRoundTrip : Obligations.HeaderRoundTrip := by
  refine ⟨fun h => ?_, fun h hwf => ?_, fun B hlen => ?_⟩
  · simpa using headerDecode_headerEncode h []
  · simpa using headerDecode_headerEncode_of_wf hwf []
  · obtain ⟨X, Y, hX, rfl⟩ := exists_take_append B 20 hlen
    rw [headerDecode_append X Y hX, List.take_left' hX]
    exact headerEncode_of_twenty hX

/-! ## An 8-bit field before a 24-bit field -/

/-- One byte and the 24-bit field after it, read as one 32-bit word (R62, R63). -/
theorem memRead_byte_encode24 (X Y : Bytes) (b : Byte) (v : U32) :
    memRead (X ++ (b :: encode24 v ++ Y)) X.length 4 = b.toNat * 2 ^ 24 + v.toNat % 2 ^ 24 := by
  have hs : slice (X ++ (b :: encode24 v ++ Y)) X.length (X.length + 4) = b :: encode24 v := by
    have := slice_append_right X (b :: encode24 v ++ Y) 0 4
    rw [Nat.add_zero, slice_zero] at this
    exact this.trans (List.take_left' (by simp))
  rw [memRead, hs, bigEndian_cons, encode24_length, encode24, bigEndian_be]
  norm_num

/-- Settles O9: all three words are `memRead_byte_encode24`; an AVP's Length is reduced modulo 2^24. -/
theorem mixedWidthWords : Obligations.MixedWidthWords := by
  refine ⟨fun h => ⟨?_, ?_⟩, fun A => ?_⟩
  · simpa [headerEncode] using memRead_byte_encode24 [] _ h.version h.messageLength
  · simpa [headerEncode] using
      memRead_byte_encode24 (h.version :: encode24 h.messageLength)
        (be h.applicationID.toNat 4 ++ be h.hopByHopID.toNat 4 ++ be h.endToEndID.toNat 4) h.commandFlags h.commandCode
  · have hword := memRead_byte_encode24 (be A.code.toNat 4)
      ((if vBit A.flags then be A.vendorID.toNat 4 else []) ++ A.data ++ zeros (pad4 (avpLength A)))
      A.flags (BitVec.ofNat 32 (avpLength A))
    rw [BitVec.toNat_ofNat, Nat.mod_mod_of_dvd _ (by decide)] at hword
    simpa [avpWire, avpHeader] using hword

end Sys2Proof.Machine
end

section
/-! The AVP boundary loop (R184, R185): what it does over well-decoded segments, and that success leaves nothing but such segments and fewer
than 8 bytes (43_message_assembler.md section 3): O21. -/

namespace Sys2Proof.Machine

theorem withinLimit_zero (limit : Option Nat) : withinLimit limit 0 = true := by
  cases limit <;> simp [withinLimit]

theorem withinLimit_of_le {limit : Option Nat} {m n : Nat} (h : withinLimit limit n = true) (hle : m ≤ n) :
    withinLimit limit m = true := by
  cases limit with
  | none => rfl
  | some k => simp only [withinLimit, decide_eq_true_eq] at *; omega

/-- Fewer than 8 bytes after the cursor are the trailing ones (R185). -/
theorem avpLoop_tail (limit : Option Nat) (X Y : Bytes) (fuel : Nat) (S : List Avp) (h : Y.length < 8) :
    avpLoop limit (X ++ Y) fuel X.length S = .ok (S, Y.length) := by
  have hleft : (X ++ Y).length - X.length = Y.length := by rw [List.length_append, Nat.add_sub_cancel_left]
  rw [avpLoop_stop _ _ _ _ _ (hleft ▸ h), hleft]

/-- One pass for each segment: the loop reaches the end of the segments with their records, as long as the sequence has room. -/
theorem avpLoop_segments (limit : Option Nat) {segs : List Bytes} {T : List Avp} (hsegs : segmentsDecode segs T)
    (X rest : Bytes) (fuel : Nat) (S : List Avp) (hroom : withinLimit limit (S.length + T.length) = true) :
    avpLoop limit (X ++ (segs.flatten ++ rest)) (fuel + segs.length) X.length S =
      avpLoop limit ((X ++ segs.flatten) ++ rest) fuel (X ++ segs.flatten).length (S ++ T) := by
  induction hsegs generalizing X S with
  | nil => simp
  | @cons seg A segs T hseg _ ih =>
    rw [List.length_cons] at hroom
    have hnext := ih (X ++ seg) (S ++ [A]) (by simpa [Nat.add_assoc, Nat.add_comm 1] using hroom)
    have hpass := avpLoop_segment limit X seg (segs.flatten ++ rest) A (fuel + segs.length) S hseg
    rw [listFull_of_within hroom (by omega), if_neg Bool.false_ne_true, hnext] at hpass
    simpa [Nat.add_assoc] using hpass

/-- A decoded buffer of exactly its own declared Length and padding is a segment (R184). -/
theorem segmentDecodes_take {Y : Bytes} {A : Avp} {L' : U32} {L : Nat} (hL : L = (decode24 (slice Y 5 8)).toNat)
    (hlen : L + pad4 L ≤ Y.length) (hdec : avpDecode (Y.take (L + pad4 L)) = .ok (A, L')) :
    segmentDecodes (Y.take (L + pad4 L)) A := by
  refine ⟨L', hdec, ?_⟩
  obtain ⟨h8, hL', -, -, -, -⟩ := avpDecode_ok_inv hdec
  have hfield : slice Y 5 8 = slice (Y.take (L + pad4 L)) 5 8 := by
    conv_lhs => rw [← List.take_append_drop (L + pad4 L) Y]
    exact slice_append_left _ _ h8
  rw [hL', ← hfield, ← hL, List.length_take_of_le hlen]

/-- A pass that does not raise has decoded one segment and had room for its record (R184). -/
theorem avpLoop_pass_ok {limit : Option Nat} {X Y : Bytes} {fuel : Nat} {S : List Avp} {p : List Avp × Nat}
    (h : avpLoop limit (X ++ Y) (fuel + 1) X.length S = .ok p) (h8 : 8 ≤ Y.length) :
    ∃ (seg rest : Bytes) (A : Avp), Y = seg ++ rest ∧ segmentDecodes seg A ∧ listFull limit S.length = false ∧
      avpLoop limit ((X ++ seg) ++ rest) fuel (X ++ seg).length (S ++ [A]) = .ok p := by
  rw [avpLoop_pass _ _ _ _ _ h8] at h
  generalize hL : (decode24 (slice Y 5 8)).toNat = L at h
  simp only at h
  split at h
  · cases h
  split at h
  · cases h
  rename_i hfit _ A L' hdec
  split at h
  · cases h
  rename_i hfull
  have hcur : (X ++ Y.take (L + pad4 L)).length = X.length + (L + pad4 L) := by
    rw [List.length_append, List.length_take_of_le (by omega)]
  refine ⟨Y.take (L + pad4 L), Y.drop (L + pad4 L), A, (List.take_append_drop _ Y).symm,
    segmentDecodes_take hL.symm (by omega) hdec, by simpa using hfull, ?_⟩
  rwa [List.append_assoc, List.take_append_drop, hcur]

/-- Where the loop succeeds with fuel for every byte left, what was left is segments of the records it adds, then fewer than 8 bytes. -/
theorem segments_of_avpLoop {limit : Option Nat} {X Y : Bytes} {fuel n : Nat} {S S' : List Avp}
    (h : avpLoop limit (X ++ Y) fuel X.length S = .ok (S', n)) (hfuel : Y.length ≤ fuel)
    (hroom : withinLimit limit S.length = true) :
    ∃ (segs : List Bytes) (T : List Avp) (tail : Bytes), Y = segs.flatten ++ tail ∧ segmentsDecode segs T ∧
      S' = S ++ T ∧ tail.length = n ∧ n < 8 ∧ withinLimit limit S'.length = true := by
  induction fuel generalizing X Y S with
  | zero =>
    obtain rfl : Y = [] := List.length_eq_zero_iff.mp (by omega)
    rw [avpLoop_tail _ _ _ _ _ (by simp)] at h
    cases h
    exact ⟨[], [], [], rfl, .nil, by simp, rfl, by simp, hroom⟩
  | succ fuel ih =>
    by_cases h8 : Y.length < 8
    · rw [avpLoop_tail _ _ _ _ _ h8] at h
      cases h
      exact ⟨[], [], Y, rfl, .nil, by simp, rfl, h8, hroom⟩
    · obtain ⟨seg, rest, A, rfl, hseg, hfull, hnext⟩ := avpLoop_pass_ok h (by omega)
      obtain ⟨hseg8, -, -⟩ := segmentDecodes_inv hseg
      rw [List.length_append] at hfuel
      obtain ⟨segs, T, tail, rfl, hsegs, rfl, htail, hn, hroom'⟩ :=
        ih hnext (by omega) (by simpa using withinLimit_succ hroom hfull)
      exact ⟨seg :: segs, A :: T, tail, by simp, .cons hseg hsegs, by simp, htail, hn, hroom'⟩

/-- From 28 bytes on the first 20 always decode, and the loop decides the rest (R183, R184). -/
theorem msgDecode_head {head Y : Bytes} (limit : Option Nat) (hhead : head.length = 20) (hY : 8 ≤ Y.length) :
    ∃ H, headerDecode head = .ok H ∧
      msgDecode limit (head ++ Y) =
        (avpLoop limit (head ++ Y) (head ++ Y).length head.length []).map fun p => (⟨H, p.1⟩, p.2) := by
  obtain ⟨H, hH⟩ := headerDecode_ok head hhead.ge
  refine ⟨H, hH, ?_⟩
  unfold msgDecode
  rw [if_neg (by simp; omega), slice_zero, List.take_left' hhead, hH, hhead]
  simp only
  cases avpLoop limit (head ++ Y) (head ++ Y).length 20 [] <;> rfl

theorem segs_length_le {segs : List Bytes} {T : List Avp} (h : segmentsDecode segs T) : segs.length ≤ segs.flatten.length := by
  induction h with
  | nil => simp
  | cons hseg _ ih =>
    obtain ⟨h8, -, -⟩ := segmentDecodes_inv hseg
    simp only [List.length_cons, List.flatten_cons, List.length_append]
    omega

/-- After well-decoded segments the loop stands at their end with at least one pass left for every further byte (R184). -/
theorem avpLoop_after_segments (limit : Option Nat) (head rest : Bytes) {segs : List Bytes} {T : List Avp}
    (hsegs : segmentsDecode segs T) (hroom : withinLimit limit T.length = true) :
    ∃ fuel, rest.length ≤ fuel ∧
      avpLoop limit (head ++ (segs.flatten ++ rest)) (head ++ (segs.flatten ++ rest)).length head.length [] =
        avpLoop limit ((head ++ segs.flatten) ++ rest) fuel (head ++ segs.flatten).length T := by
  have hle := segs_length_le hsegs
  refine ⟨(head ++ (segs.flatten ++ rest)).length - segs.length, by simp only [List.length_append]; omega, ?_⟩
  have hrun := avpLoop_segments limit hsegs head rest ((head ++ (segs.flatten ++ rest)).length - segs.length) []
    (by simpa using hroom)
  rwa [Nat.sub_add_cancel (by simp only [List.length_append]; omega), List.nil_append] at hrun

/-- A header, segments and fewer than 8 bytes decode (R182 to R185). -/
theorem msgDecode_of_segments {limit : Option Nat} {head tail : Bytes} {H : Header} {segs : List Bytes} {S : List Avp}
    (hlen : head.length = 20) (hH : headerDecode head = .ok H) (hsegs : segmentsDecode segs S)
    (hroom : withinLimit limit S.length = true) (h8 : 8 ≤ (segs.flatten ++ tail).length) (htail : tail.length < 8) :
    msgDecode limit (head ++ (segs.flatten ++ tail)) = .ok (⟨H, S⟩, tail.length) := by
  obtain ⟨H', hH', hdec⟩ := msgDecode_head limit hlen h8
  obtain rfl : H' = H := by simpa [hH'] using hH
  obtain ⟨fuel, -, hrun⟩ := avpLoop_after_segments limit head tail hsegs hroom
  rw [hdec, hrun, avpLoop_tail _ _ _ _ _ htail]
  rfl

/-- Settles O21: forwards the loop's own segments, by `segments_of_avpLoop`; backwards one pass for each segment and a stop. -/
theorem msgDecodeFindsExactBoundaries : Obligations.MsgDecodeFindsExactBoundaries := by
  intro limit B M trail
  constructor
  · intro h
    have h28 : 28 ≤ B.length := by
      by_contra hshort
      rw [msgDecode_of_short limit (by omega)] at h
      cases h
    obtain ⟨head, Y, hhead, rfl⟩ := exists_take_append B 20 (by omega)
    rw [List.length_append] at h28
    obtain ⟨H, hH, hdec⟩ := msgDecode_head limit hhead (Y := Y) (by omega)
    cases hrun : avpLoop limit (head ++ Y) (head ++ Y).length head.length [] with
    | error e => rw [hdec, hrun] at h; cases h
    | ok p =>
      rw [hdec, hrun] at h
      cases h
      obtain ⟨segs, T, tail, hY, hsegs, hS, htail, hn, hroom⟩ :=
        segments_of_avpLoop hrun (by simp) (withinLimit_zero limit)
      rw [List.nil_append] at hS
      refine ⟨by simp; omega, by rwa [List.take_left' hhead], hroom, hn, segs, tail, ?_, hS ▸ hsegs, htail⟩
      rw [List.drop_left' hhead, hY]
  · rintro ⟨h28, hH, hroom, htrail, segs, tail, hsplit, hsegs, rfl⟩
    have h8 : 8 ≤ (segs.flatten ++ tail).length := by rw [← hsplit, List.length_drop]; omega
    have hdec := msgDecode_of_segments (List.length_take_of_le (by omega)) hH hsegs hroom h8 htrail
    rwa [← hsplit, List.take_append_drop] at hdec

end Sys2Proof.Machine
end

section
/-! How parsing fails (60_exceptions.md section 2): the pass after well-decoded segments decides the outcome, and no pass reads the header:
O22 to O24. -/

namespace Sys2Proof.Machine

/-- After well-decoded segments, the pass over what follows them is the answer, as long as it raises (R184). -/
theorem msgDecode_error_of_pass {limit : Option Nat} {head bad : Bytes} {segs : List Bytes} {S : List Avp} {e : Code}
    (hhead : head.length = 20) (hsegs : segmentsDecode segs S) (hroom : withinLimit limit S.length = true)
    (hbad : 8 ≤ bad.length)
    (hpass : ∀ fuel, avpLoop limit ((head ++ segs.flatten) ++ bad) (fuel + 1) (head ++ segs.flatten).length S = .error e) :
    msgDecode limit (head ++ segs.flatten ++ bad) = .error e := by
  obtain ⟨H, -, hdec⟩ := msgDecode_head limit hhead (Y := segs.flatten ++ bad) (by rw [List.length_append]; omega)
  obtain ⟨fuel, hfuel, hrun⟩ := avpLoop_after_segments limit head bad hsegs hroom
  rw [List.append_assoc, hdec, hrun, ← Nat.sub_add_cancel (show 1 ≤ fuel by omega), hpass]
  rfl

/-- Settles O22: the three ways in which `avpLoop_pass` raises, in its order. -/
theorem msgDecodeReportsFirstFailure : Obligations.MsgDecodeReportsFirstFailure := by
  rintro limit head bad segs S L hhead hsegs hroom hbad rfl
  refine ⟨fun hlong => ?_, fun e hfit hdec => ?_, fun p hfit hdec hfull => ?_⟩ <;>
    refine msgDecode_error_of_pass hhead hsegs hroom hbad fun fuel => (avpLoop_pass _ _ _ _ _ hbad).trans ?_
  · exact if_pos hlong
  · simp only [if_neg (Nat.not_lt.mpr hfit), hdec]
  · have hlist : listFull limit S.length = true := decide_eq_true hfull
    simp only [if_neg (Nat.not_lt.mpr hfit), hdec, hlist, if_true]

/-- An error of the first AVP's own decoder is the answer (R184). -/
theorem msgDecode_first_error {limit : Option Nat} {head bad : Bytes} {e : Code} {L : Nat} (hhead : head.length = 20)
    (hbad : 8 ≤ bad.length) (hL : L = (decode24 (slice bad 5 8)).toNat) (hfit : L + pad4 L ≤ bad.length)
    (hdec : avpDecode (bad.take (L + pad4 L)) = .error e) : msgDecode limit (head ++ bad) = .error e := by
  obtain ⟨-, hown, -⟩ :=
    msgDecodeReportsFirstFailure limit head bad [] [] L hhead .nil (withinLimit_zero limit) hbad hL
  simpa using hown e hfit hdec

theorem pad4_end {L n : Nat} (hle : L ≤ n) (hmul : n % 4 = 0) (hlt : n < L + 4) : L + pad4 L = n := by
  have haligned := pad4_aligned L
  have hrange := pad4_le L
  omega

/-- Settles O23: the padded end of the first AVP, 4, 8 or 12 bytes long, is too short for its own header. -/
theorem msgDecodeSmallLengthErrors : Obligations.MsgDecodeSmallLengthErrors := by
  rintro limit head c0 c1 c2 c3 f l0 l1 l2 rest L hhead rfl
  have hfield := (declaredLength_bytes c0 c1 c2 c3 f l0 l1 l2 rest).symm
  have hbad : 8 ≤ ([c0, c1, c2, c3, f, l0, l1, l2] ++ rest).length := by simp
  have hrange := pad4_le (l0 ++ l1 ++ l2).toNat
  simp only [List.append_assoc]
  refine ⟨fun hle => ?_, fun hge hle hf => ?_, fun hge hle hf => ?_, fun hge hle hf hrest => ?_⟩
  · exact msgDecode_first_error hhead hbad hfield (by omega) (avpDecode_short _ (by rw [List.length_take]; omega))
  · have hend := pad4_end (n := 8) (by omega) (by decide) (by omega) (L := (l0 ++ l1 ++ l2).toNat)
    refine msgDecode_first_error hhead hbad hfield (by omega) ?_
    rw [hend]
    exact (avpDecode_eq_of_plain c0 c1 c2 c3 f l0 l1 l2 [] hf).trans (if_neg (by omega))
  · have hend := pad4_end (n := 8) (by omega) (by decide) (by omega) (L := (l0 ++ l1 ++ l2).toNat)
    refine msgDecode_first_error hhead hbad hfield (by omega) ?_
    rw [hend]
    exact avpDecode_shortVendor c0 c1 c2 c3 f l0 l1 l2 [] hf (by decide)
  · have hend := pad4_end (n := 12) (by omega) (by decide) (by omega) (L := (l0 ++ l1 ++ l2).toNat)
    refine msgDecode_first_error hhead hbad hfield (by rw [hend, List.length_append]; simp; omega) ?_
    obtain ⟨V, rest', hV, rfl⟩ := exists_take_append rest 4 hrest
    match V, hV with
    | [v0, v1, v2, v3], _ =>
      rw [hend]
      exact (avpDecode_eq_of_vendor c0 c1 c2 c3 f l0 l1 l2 v0 v1 v2 v3 [] hf).trans (if_neg (by omega))

/-- A slice that begins behind the first part does not depend on it. -/
theorem slice_append_congr {X X' : Bytes} (Y : Bytes) {a : Nat} (b : Nat) (hlen : X.length = X'.length) (ha : X.length ≤ a) :
    slice (X ++ Y) a b = slice (X' ++ Y) a b := by
  simp only [slice, List.drop_take, List.drop_append, List.drop_eq_nil_of_le ha, List.drop_eq_nil_of_le (hlen ▸ ha), hlen]

/-- The loop reads nothing before its cursor (R184). -/
theorem avpLoop_append_congr (limit : Option Nat) {X X' : Bytes} (Y : Bytes) (fuel cur : Nat) (S : List Avp)
    (hlen : X.length = X'.length) (hcur : X.length ≤ cur) :
    avpLoop limit (X ++ Y) fuel cur S = avpLoop limit (X' ++ Y) fuel cur S := by
  have htotal : (X ++ Y).length = (X' ++ Y).length := by simp [hlen]
  induction fuel generalizing cur S with
  | zero => simp only [avpLoop, htotal]
  | succ fuel ih =>
    have hfield := slice_append_congr Y (a := cur + 5) (cur + 8) hlen (by omega)
    have hseg := fun b => slice_append_congr Y b hlen hcur
    have hnext := fun n S => ih (cur + (decode24 (slice (X' ++ Y) (cur + 5) (cur + 8))).toNat + n) S (by omega)
    simp only [avpLoop, htotal, hfield, hseg, hnext]

/-- Settles O24: both headers decode, and the loop starts behind the bytes that differ. -/
theorem msgDecodeIgnoresMessageLength : Obligations.MsgDecodeIgnoresMessageLength := by
  intro limit v m1 m2 m3 n1 n2 n3 rest
  by_cases hshort : rest.length < 24
  · rw [msgDecode_of_short limit (by simp; omega), msgDecode_of_short limit (by simp; omega)]
  · obtain ⟨R, Y, hR, rfl⟩ := exists_take_append rest 16 (by omega)
    have hY : 8 ≤ Y.length := by rw [List.length_append] at hshort; omega
    have hlen : ∀ a b c : Byte, ([v, a, b, c] ++ R).length = 20 := fun a b c => by simp [hR]
    obtain ⟨H, -, hm⟩ := msgDecode_head limit (hlen m1 m2 m3) hY
    obtain ⟨H', -, hn⟩ := msgDecode_head limit (hlen n1 n2 n3) hY
    have hloop := avpLoop_append_congr limit Y ([v, m1, m2, m3] ++ R ++ Y).length 20 []
      ((hlen m1 m2 m3).trans (hlen n1 n2 n3).symm) (hlen m1 m2 m3).le
    rw [← List.append_assoc, ← List.append_assoc, hm, hn, hlen, hlen, hloop]
    rw [List.length_append, hlen, List.length_append, hlen]
    cases avpLoop limit ([v, n1, n2, n3] ++ R ++ Y) (20 + Y.length) 20 [] <;> rfl

end Sys2Proof.Machine
end

section
/-! MSGLEN, MSGENC and MSGDEC (43_message_assembler.md sections 1 to 3 and 5): the three answers of `msgEncode`, the length of what it writes,
and that `msgDecode` recovers it: O16 to O18, O20, O25. -/

namespace Sys2Proof.Machine

/-- Settles O16: MSGLEN raises nothing. -/
theorem msglenStoresTotal : Obligations.MsglenStoresTotal := ⟨rfl, fun _ => rfl⟩

/-- Settles O20: a decoded message is committed with its trailing count, an error is raised. -/
theorem msgdecCommitsOnlyOnSuccess : Obligations.MsgdecCommitsOnlyOnSuccess :=
  ⟨rfl, fun s _ _ h => conclude_map_of_ok _ s h, fun _ _ h => exec_msgdec_of_error h⟩

/-! ## The answers of MSGENC (R188, R191, R187) -/

theorem msgEncode_of_empty {M : Message} (h : ∃ A ∈ M.avps, A.data = []) : msgEncode M = .error .emptyPayload :=
  if_pos (by simpa using h)

theorem msgEncode_of_long {M : Message} (hdata : ∀ A ∈ M.avps, A.data ≠ []) (h : 2 ^ 24 - 1 < totalLength M) :
    msgEncode M = .error .lengthMismatch := by
  rw [msgEncode, if_neg (by simpa using hdata), if_pos h]

theorem msgEncode_of_fits {M : Message} (hdata : ∀ A ∈ M.avps, A.data ≠ []) (h : totalLength M ≤ 2 ^ 24 - 1) :
    msgEncode M = .ok (msgWire M, totalLength M) := by
  rw [msgEncode, if_neg (by simpa using hdata), if_neg (by omega)]

/-- What a successful encode says about the message. -/
theorem msgEncode_ok_inv {M : Message} {p : Bytes × Nat} (h : msgEncode M = .ok p) :
    p = (msgWire M, totalLength M) ∧ totalLength M ≤ 2 ^ 24 - 1 := by
  unfold msgEncode at h
  split at h
  · cases h
  · split at h
    · cases h
    · cases h; exact ⟨rfl, by omega⟩

/-- What MSGENC stores when it succeeds (R192). -/
def msgencDone (s : State) : State :=
  succeed { ResultRegs.reset with buf := msgWire s.msg, u32 := BitVec.ofNat 32 (totalLength s.msg) }
    (withMessageLength s.msg (totalLength s.msg)) s

theorem exec_msgenc_of_ok {s : State} (h : msgEncode s.msg = .ok (msgWire s.msg, totalLength s.msg)) :
    exec .msgenc s = .next (msgencDone s) := by
  change execMsgenc s = _
  rw [execMsgenc, h]
  rfl

theorem exec_msgenc_of_empty {s : State} (h : msgEncode s.msg = .error .emptyPayload) :
    exec .msgenc s = .next (raise .emptyPayload s) := by
  change execMsgenc s = _
  rw [execMsgenc, h]
  rfl

theorem exec_msgenc_of_long {s : State} (h : msgEncode s.msg = .error .lengthMismatch) :
    exec .msgenc s = .next (raise .lengthMismatch (setDefect s)) := by
  change execMsgenc s = _
  rw [execMsgenc, h]
  rfl

/-- Settles O17: one answer of `msgEncode` for each clause. -/
theorem msgencThreeOutcomes : Obligations.MsgencThreeOutcomes := by
  refine ⟨rfl, fun s => ⟨fun h => exec_msgenc_of_empty (msgEncode_of_empty h),
    fun hdata h => exec_msgenc_of_long (msgEncode_of_long hdata h), fun hdata h => ?_⟩⟩
  simp only [← avpWire_eq_expectedAvpBytes]
  exact exec_msgenc_of_ok (msgEncode_of_fits hdata h)

/-! ## The length of a message (R210) -/

theorem msgWire_length (M : Message) : (msgWire M).length = totalLength M := by
  simp [msgWire, totalLength, Function.comp_def]

theorem totalLength_aligned (M : Message) : totalLength M % 4 = 0 := by
  obtain ⟨h, S⟩ := M
  induction S with
  | nil => rw [totalLength_nil]
  | cons A S ih =>
    have hA := avpPadded_aligned A
    rw [totalLength_cons]
    omega

/-- The output's own MessageLength field (R187, R189). -/
theorem decode24_msgWire (M : Message) (h : totalLength M ≤ 2 ^ 24 - 1) :
    decode24 (slice (msgWire M) 1 4) = BitVec.ofNat 32 (totalLength M) := by
  have hdec := headerDecode_headerEncode (withMessageLength M (totalLength M)).hdr (M.avps.map avpWire).flatten
  have hlt : (BitVec.ofNat 32 (totalLength M)).toNat < 2 ^ 24 := by
    rw [BitVec.toNat_ofNat]; omega
  exact (headerDecode_messageLength hdec).symm.trans (ofNat_mod_of_lt _ hlt)

/-- A MSGENC that ends OK is the one that succeeds. -/
theorem exec_msgenc_ok_inv {s t : State} (h : exec .msgenc s = .next t) (hcode : t.status.code = .ok) :
    t = msgencDone s ∧ totalLength s.msg ≤ 2 ^ 24 - 1 := by
  cases henc : msgEncode s.msg with
  | ok p =>
    obtain ⟨rfl, hle⟩ := msgEncode_ok_inv henc
    rw [exec_msgenc_of_ok henc] at h
    cases h
    exact ⟨rfl, hle⟩
  | error e =>
    rcases msgEncode_error henc with rfl | rfl
    · rw [exec_msgenc_of_empty henc] at h
      cases h; cases hcode
    · rw [exec_msgenc_of_long henc] at h
      cases h; cases hcode

/-- Settles O18: the output is as long as the total, which its Length field holds without truncation. -/
theorem msgencLengthIsCorrect : Obligations.MsgencLengthIsCorrect := by
  intro s t h hcode
  obtain ⟨rfl, hle⟩ := exec_msgenc_ok_inv h hcode
  have hu32 : (BitVec.ofNat 32 (totalLength s.msg)).toNat = totalLength s.msg := by
    rw [BitVec.toNat_ofNat]; omega
  refine ⟨msgWire_length s.msg, hu32, rfl, rfl, ?_, ?_⟩
  · change (decode24 (slice (msgWire s.msg) 1 4)).toNat = (msgWire s.msg).length
    rw [decode24_msgWire _ hle, hu32, msgWire_length]
  · change (msgWire s.msg).length % 4 = 0
    rw [msgWire_length, totalLength_aligned]

/-! ## The round trip (R211) -/

/-- The encoded bytes of a well-formed record are one segment of a message (R184). -/
theorem segmentDecodes_avpWire {A : Avp} (h : A.wf = true) : segmentDecodes (avpWire A) A := by
  obtain ⟨-, hlen, -⟩ := (avp_wf_iff A).mp h
  have hL : (BitVec.ofNat 32 (avpLength A)).toNat = avpLength A := by
    rw [BitVec.toNat_ofNat]; omega
  exact ⟨_, by simpa using avpDecode_avpWire h [], by rw [avpWire_length, hL]; rfl⟩

theorem segmentsDecode_map_avpWire {S : List Avp} (h : ∀ A ∈ S, A.wf = true) : segmentsDecode (S.map avpWire) S := by
  induction S with
  | nil => exact .nil
  | cons A S ih =>
    exact .cons (segmentDecodes_avpWire (h A List.mem_cons_self)) (ih fun B hB => h B (List.mem_cons_of_mem A hB))

/-- The header MSGENC writes is well-formed where the total and CommandCode fit 24 bits (R131). -/
theorem header_wf_of_total {M : Message} (htotal : totalLength M < 2 ^ 24) (hcc : M.hdr.commandCode.toNat < 2 ^ 24) :
    (withMessageLength M (totalLength M)).hdr.wf = true := by
  refine (header_wf_iff _).mpr ⟨?_, hcc⟩
  change (BitVec.ofNat 32 (totalLength M)).toNat < 2 ^ 24
  rw [BitVec.toNat_ofNat]
  omega

/-- `msgDecode` recovers what `msgEncode` writes of a well-formed message, with nothing left over. -/
theorem msgDecode_msgWire {limit : Option Nat} {M : Message} (hne : M.avps ≠ []) (hwf : ∀ A ∈ M.avps, A.wf = true)
    (htotal : totalLength M < 2 ^ 24) (hcc : M.hdr.commandCode.toNat < 2 ^ 24)
    (hroom : withinLimit limit M.avps.length = true) :
    msgDecode limit (msgWire M) = .ok (withMessageLength M (totalLength M), 0) := by
  have hH := headerDecode_headerEncode_of_wf (header_wf_of_total htotal hcc) []
  rw [List.append_nil] at hH
  have h8 : 8 ≤ ((M.avps.map avpWire).flatten ++ []).length := by
    obtain ⟨A, S, hS⟩ := List.exists_cons_of_ne_nil hne
    have := avpPadded_ge A
    simp [hS]
    omega
  have hdec := msgDecode_of_segments (headerEncode_length _) hH (segmentsDecode_map_avpWire hwf) hroom h8 (by simp)
  rw [List.append_nil] at hdec
  exact hdec

/-- Settles O25: MSGENC succeeds because no Data is empty, and MSGDEC recovers its output by `msgDecode_msgWire`. -/
theorem msgencThenMsgdecRestores : Obligations.MsgencThenMsgdecRestores := by
  intro s hne hwf htotal hcc hroom
  have henc := exec_msgenc_of_ok (msgEncode_of_fits (fun A hA => data_ne_nil_of_wf (hwf A hA)) (by omega))
  exact ⟨_, _, henc, conclude_map_of_ok _ _ (msgDecode_msgWire hne hwf htotal hcc hroom), rfl, rfl, rfl, rfl⟩

end Sys2Proof.Machine
end

section
/-! The message store (43_message_assembler.md section 4): O26 to O31, and the search by Code over a list split at its first match: O33, O34. -/

namespace Sys2Proof.Machine

/-- Settles O26: MSGGETH raises nothing. -/
theorem msggethReadsHeader : Obligations.MsggethReadsHeader := ⟨rfl, fun _ => rfl⟩

/-- Settles O27: MSGSETH raises nothing. -/
theorem msgsethStoresHeader : Obligations.MsgsethStoresHeader := ⟨rfl, fun _ => rfl⟩

/-- Settles O30: MSGGETL raises nothing. -/
theorem msggetlSnapshotsList : Obligations.MsggetlSnapshotsList := ⟨rfl, fun _ => rfl⟩

/-- Settles O31: MSGCLR raises nothing. -/
theorem msgclrEmptiesMessage : Obligations.MsgclrEmptiesMessage := ⟨rfl, fun _ => rfl⟩

/-- Settles O28: the capacity test is the only branch. -/
theorem msgappAppendsUnlessFull : Obligations.MsgappAppendsUnlessFull := by
  refine ⟨rfl, fun s => ⟨fun h => ?_, fun h => ?_⟩⟩
  · exact if_neg (by simpa [listFull] using h)
  · exact if_pos (by simpa [listFull] using h)

/-- A host action other than a CMD write leaves MSG (R29, R50). -/
theorem hostAct_msg {act : HostAction} {s t : State} (hact : ∀ v, act ≠ .command v) (h : hostAct act s = .next t) :
    t.msg = s.msg := by
  rcases hostAct_cases h with rfl | ⟨a, rfl, -⟩ | ⟨v, rfl, -⟩
  · rfl
  · rfl
  · exact absurd rfl (hact v)

/-- Settles O29: MSG holds the list itself, which a later write of A_LIST does not touch. -/
theorem msgsetlReplacesList : Obligations.MsgsetlReplacesList := by
  refine ⟨rfl, fun _ => rfl, fun s t u later ht hu => ?_⟩
  cases ht
  rw [hostAct_msg (by simp) hu]
  rfl

theorem firstIndex_of_split {before after : List Avp} {A : Avp} {c : U32} (hA : A.code = c)
    (hbefore : ∀ X ∈ before, X.code ≠ c) : firstIndex (before ++ A :: after) c = some before.length := by
  refine (firstIndex_eq_some_iff _ _ _).mpr ⟨A, by simp, hA, fun j A' hj hA' => ?_⟩
  rw [List.getElem?_append_left hj] at hA'
  exact hbefore A' (List.mem_of_getElem? hA')

theorem exec_msgget_of_none {s : State} (h : firstIndex s.msg.avps s.a.u32 = none) :
    exec .msgget s = .next (succeed { ResultRegs.reset with avp := Avp.zero, found := false } s.msg s) := by
  change execMsgget s = _
  rw [execMsgget, h]
  rfl

theorem exec_msgget_of_some {s : State} {i : Nat} (h : firstIndex s.msg.avps s.a.u32 = some i) :
    exec .msgget s =
      .next (succeed { ResultRegs.reset with avp := s.msg.avps.getD i Avp.zero, found := true } s.msg s) := by
  change execMsgget s = _
  rw [execMsgget, h]
  rfl

theorem exec_msgdel_of_none {s : State} (h : firstIndex s.msg.avps s.a.u32 = none) :
    exec .msgdel s = .next (succeed { ResultRegs.reset with found := false } s.msg s) := by
  change execMsgdel s = _
  rw [execMsgdel, h]
  rfl

theorem exec_msgdel_of_some {s : State} {i : Nat} (h : firstIndex s.msg.avps s.a.u32 = some i) :
    exec .msgdel s = .next (succeed { ResultRegs.reset with found := true }
      { s.msg with avps := s.msg.avps.take i ++ s.msg.avps.drop (i + 1) } s) := by
  change execMsgdel s = _
  rw [execMsgdel, h]
  rfl

/-- Settles O33: the search stops at the record that splits the list. -/
theorem msggetFindsFirstMatch : Obligations.MsggetFindsFirstMatch := by
  refine ⟨rfl, fun s before after A hsplit hA hbefore => ?_,
    fun s hnone => exec_msgget_of_none ((firstIndex_eq_none_iff _ _).mpr hnone)⟩
  have hget : s.msg.avps.getD before.length Avp.zero = A := by simp [hsplit]
  rw [exec_msgget_of_some (hsplit ▸ firstIndex_of_split hA hbefore), hget]
  rfl

/-- Settles O34: what is dropped is the record that splits the list. -/
theorem msgdelRemovesFirstMatch : Obligations.MsgdelRemovesFirstMatch := by
  refine ⟨rfl, fun s before after A hsplit hA hbefore => ?_,
    fun s hnone => exec_msgdel_of_none ((firstIndex_eq_none_iff _ _).mpr hnone)⟩
  have hrest : s.msg.avps.take before.length ++ s.msg.avps.drop (before.length + 1) = before ++ after := by simp [hsplit]
  rw [exec_msgdel_of_some (hsplit ▸ firstIndex_of_split hA hbefore), hrest]
  rfl

end Sys2Proof.Machine
end

section
/-! One step of the framer (44_stream_framer.md section 2): what it makes of an offered byte, of a close and of neither, and what it never
touches: O35 to O40. -/

namespace Sys2Proof.Machine

/-- Settles O35: FRAME's step has no branch. -/
theorem frameStartsFramer : Obligations.FrameStartsFramer := ⟨rfl, fun _ => rfl⟩

/-! ## The offered byte -/

theorem inValid_of_cons {s : State} {b : Byte} {rest : Bytes} (h : s.inp.bytes = b :: rest) : inValid s = true := by
  simp [inValid, h]

theorem inValid_of_nil {s : State} (h : s.inp.bytes = []) : inValid s = false := by
  simp [inValid, h]

theorem takeByte_of_cons {s : State} {b : Byte} {rest : Bytes} (h : s.inp.bytes = b :: rest) :
    takeByte s = { s with
      fr := { s.fr with buf := s.fr.buf ++ [b] }
      inp := { s.inp with bytes := rest } } := by
  simp [takeByte, consumeByte, inData, h]

theorem framerStep_inPrefix {s : State} (hp : s.fr.phase = .inPrefix) (hv : inValid s = true) :
    framerStep s = if s.fr.buf.length + 1 = 4 then evaluatePrefix (takeByte s) else takeByte s := by
  simp [framerStep, hp, hv, prefixByte]

theorem framerStep_inBody {s : State} (hp : s.fr.phase = .inBody) (hv : inValid s = true) :
    framerStep s =
      if s.fr.need - 1 = 0 then completeFrame (countBodyByte (takeByte s)) else countBodyByte (takeByte s) := by
  simp [framerStep, hp, hv, bodyByte]

/-- One of the first three bytes is stored (R232). -/
theorem framerStep_stores {s : State} {b : Byte} {rest : Bytes} (hp : s.fr.phase = .inPrefix)
    (hb : s.inp.bytes = b :: rest) (hlen : s.fr.buf.length < 3) :
    framerStep s = { s with
      fr := { s.fr with buf := s.fr.buf ++ [b] }
      inp := { s.inp with bytes := rest } } := by
  rw [framerStep_inPrefix hp (inValid_of_cons hb), if_neg (by omega), takeByte_of_cons hb]

/-- The fourth byte is stored, and the MessageLength is evaluated in the same step (R232, R233). -/
theorem framerStep_evaluates {s : State} {b : Byte} {rest : Bytes} (hp : s.fr.phase = .inPrefix)
    (hb : s.inp.bytes = b :: rest) (hlen : s.fr.buf.length = 3) :
    framerStep s = evaluatePrefix { s with
      fr := { s.fr with buf := s.fr.buf ++ [b] }
      inp := { s.inp with bytes := rest } } := by
  rw [framerStep_inPrefix hp (inValid_of_cons hb), if_pos (by omega), takeByte_of_cons hb]

theorem need_sub_one_eq_zero_iff (n : U24) : n - 1 = 0 ↔ n = 1 := sub_eq_zero

/-- A body byte that is not the last one is stored and counted (R234). -/
theorem framerStep_counts {s : State} {b : Byte} {rest : Bytes} (hp : s.fr.phase = .inBody)
    (hb : s.inp.bytes = b :: rest) (hneed : s.fr.need ≠ 1) :
    framerStep s = { s with
      fr := { s.fr with buf := s.fr.buf ++ [b], need := s.fr.need - 1 }
      inp := { s.inp with bytes := rest } } := by
  rw [framerStep_inBody hp (inValid_of_cons hb), if_neg (by rwa [need_sub_one_eq_zero_iff]), takeByte_of_cons hb]
  rfl

/-- The last body byte completes the frame in the same step (R234, R236). -/
theorem framerStep_completes {s : State} {b : Byte} {rest : Bytes} (hp : s.fr.phase = .inBody)
    (hb : s.inp.bytes = b :: rest) (hneed : s.fr.need = 1) :
    framerStep s = completeFrame { s with
      fr := { s.fr with buf := s.fr.buf ++ [b], need := 0 }
      inp := { s.inp with bytes := rest } } := by
  have hzero := (need_sub_one_eq_zero_iff _).mpr hneed
  rw [framerStep_inBody hp (inValid_of_cons hb), if_pos hzero, takeByte_of_cons hb, ← hzero]
  rfl

/-- FR_NEED on the way into the body, in 24 bits (R233). -/
theorem ofNat_sub_four {x : U24} (h : 4 < x.toNat) : BitVec.ofNat 24 (x.toNat - 4) = x - 4 := by
  bv_omega

/-- Settles O36: the byte is stored, and only the fourth one has its MessageLength tested. -/
theorem framerTakesPrefixByte : Obligations.FramerTakesPrefixByte := by
  refine ⟨fun s b rest => framerStep_stores, fun s p0 p1 p2 b rest hp hb hbuf => ?_⟩
  have hml : frameLength { s with
      fr := { s.fr with buf := [p0, p1, p2] ++ [b] }, inp := { s.inp with bytes := rest } } = 0#8 ++ (p1 ++ p2 ++ b) :=
    decode24_three p1 p2 b
  have hnat := zero_append_toNat (p1 ++ p2 ++ b)
  rw [framerStep_evaluates hp hb (by rw [hbuf]; rfl), hbuf]
  split
  · rw [evaluatePrefix_end _ (by rw [hml]; omega), hml]
    rfl
  · rw [evaluatePrefix_body _ (by rw [hml]; omega), hml, hnat, ofNat_sub_four (by omega)]
    rfl

/-- Settles O37: the byte is stored and counted, and only the last one needed completes the frame. -/
theorem framerTakesBodyByte : Obligations.FramerTakesBodyByte := by
  refine ⟨fun s b rest => framerStep_counts, fun s b rest hp hb hneed => ?_⟩
  rw [framerStep_completes hp hb hneed]
  unfold completeFrame
  simp only
  cases msgDecode s.params.maxAvps (s.fr.buf ++ [b]) <;> rfl

/-! ## No offered byte -/

theorem framerStep_idle {s : State} (h : s.fr.phase = .idle) : framerStep s = s := by
  simp [framerStep, h]

theorem framerEnabled_idle {s : State} (h : s.fr.phase = .idle) : framerEnabled s = false := by
  simp [framerEnabled, h]

theorem framerEnabled_of_valid {s : State} (hp : s.fr.phase ≠ .idle) (hv : inValid s = true) : framerEnabled s = true := by
  simp [framerEnabled, hp, hv]

theorem framerEnabled_of_closed {s : State} (hp : s.fr.phase ≠ .idle) (hc : s.inp.closed = true) :
    framerEnabled s = true := by
  simp [framerEnabled, hp, inClosed, hc]

/-- Settles O38: with no byte the phase decides whether R_U32 is ML, and an open stream enables nothing. -/
theorem framerWithoutOfferedByte : Obligations.FramerWithoutOfferedByte := by
  refine ⟨fun s hp hb hc => ?_, fun s hb hc => ?_, fun s hp => ⟨framerEnabled_idle hp, framerStep_idle hp⟩⟩
  · cases hphase : s.fr.phase with
    | idle => exact absurd hphase hp
    | inPrefix =>
      simp only [framerStep, hphase, inValid_of_nil hb, inClosed, hc, streamEnded]
      rfl
    | inBody =>
      simp only [framerStep, hphase, inValid_of_nil hb, inClosed, hc, streamEnded]
      rfl
  · have hv := inValid_of_nil hb
    refine ⟨by simp [framerEnabled, hv, inClosed, hc], ?_⟩
    cases hphase : s.fr.phase <;> simp [framerStep, hphase, hv, inClosed, hc]

/-! ## What the framer reads and what it leaves alone (R71, D40)

Everything it does not read is replaced at once: the operands, CMD, the host's and the schedule's lists, and the stream's close. -/

/-- The state with other operands, CMD, pending inputs and close. -/
def withOutside (a : OperandRegs) (c : Byte) (program : List HostAction) (events : List Event) (closed : Bool) (s : State) :
    State :=
  { s with a := a, cmd := c, program := program, events := events, inp := { s.inp with closed := closed } }

section
variable (a : OperandRegs) (c : Byte) (program : List HostAction) (events : List Event) (closed : Bool) (s : State)

theorem evaluatePrefix_withOutside :
    evaluatePrefix (withOutside a c program events closed s) = withOutside a c program events closed (evaluatePrefix s) := by
  by_cases h : (frameLength s).toNat ≤ 4
  · rw [evaluatePrefix_end s h]
    exact evaluatePrefix_end (withOutside a c program events closed s) h
  · rw [evaluatePrefix_body s (by omega)]
    exact evaluatePrefix_body (withOutside a c program events closed s) (Nat.lt_of_not_le h)

theorem completeFrame_withOutside :
    completeFrame (withOutside a c program events closed s) = withOutside a c program events closed (completeFrame s) := by
  unfold completeFrame
  change (match msgDecode s.params.maxAvps s.fr.buf with | .ok (M, trail) => _ | .error e => _) = _
  cases msgDecode s.params.maxAvps s.fr.buf <;> rfl

theorem prefixByte_withOutside :
    prefixByte (withOutside a c program events closed s) = withOutside a c program events closed (prefixByte s) := by
  have htake : takeByte (withOutside a c program events closed s) = withOutside a c program events closed (takeByte s) := rfl
  rw [prefixByte, htake, evaluatePrefix_withOutside]
  exact (apply_ite (withOutside a c program events closed) ((takeByte s).fr.buf.length = 4) _ _).symm

theorem bodyByte_withOutside :
    bodyByte (withOutside a c program events closed s) = withOutside a c program events closed (bodyByte s) := by
  have hcount : countBodyByte (takeByte (withOutside a c program events closed s)) =
      withOutside a c program events closed (countBodyByte (takeByte s)) := rfl
  rw [bodyByte, hcount, completeFrame_withOutside]
  exact (apply_ite (withOutside a c program events closed) ((countBodyByte (takeByte s)).fr.need = 0) _ _).symm

theorem streamEnded_withOutside :
    streamEnded (withOutside a c program events closed s) = withOutside a c program events closed (streamEnded s) := by
  have hphase : (withOutside a c program events closed s).fr.phase = s.fr.phase := rfl
  cases hp : s.fr.phase <;> simp only [streamEnded, hphase, hp] <;> rfl

/-- The framer's step reads none of it; the close only where no byte is offered (R242). -/
theorem framerStep_withOutside (h : inValid s = true ∨ closed = s.inp.closed) :
    framerStep (withOutside a c program events closed s) = withOutside a c program events closed (framerStep s) := by
  have hphase : (withOutside a c program events closed s).fr.phase = s.fr.phase := rfl
  have hvalid : inValid (withOutside a c program events closed s) = inValid s := rfl
  have hclosed : inClosed (withOutside a c program events closed s) = closed := rfl
  unfold framerStep
  rw [hphase, hvalid, hclosed, prefixByte_withOutside, bodyByte_withOutside, streamEnded_withOutside]
  rcases h with hv | rfl
  · cases s.fr.phase <;> simp [hv]
  · by_cases hc : s.inp.closed = true <;>
      cases s.fr.phase <;> simp [inClosed, hc, apply_ite (withOutside a c program events _)]

end

/-- The framer leaves the operands, CMD, the parameters, DEFECT and the pending inputs as they were. -/
def framerKeeps (s t : State) : Prop :=
  t.params = s.params ∧ t.a = s.a ∧ t.cmd = s.cmd ∧ t.status.defect = s.status.defect ∧ t.program = s.program ∧
    t.events = s.events

theorem framerKeeps_refl (s : State) : framerKeeps s s := ⟨rfl, rfl, rfl, rfl, rfl, rfl⟩

theorem framerKeeps_evaluatePrefix (s : State) : framerKeeps s (evaluatePrefix s) := by
  unfold evaluatePrefix
  split <;> exact framerKeeps_refl s

theorem framerKeeps_completeFrame (s : State) : framerKeeps s (completeFrame s) := by
  rcases completeFrame_cases s with ⟨M, trail, -, h⟩ | ⟨e, -, h⟩ <;> rw [h] <;> exact framerKeeps_refl s

theorem framerKeeps_framerStep (s : State) : framerKeeps s (framerStep s) := by
  rcases framerStep_cases s with ⟨h, -⟩ | ⟨-, -, -, h⟩ | ⟨-, -, -, h⟩ | ⟨-, -, -, h⟩ | ⟨-, -, -, h⟩ | ⟨-, -, h⟩ | ⟨-, -, h⟩ <;>
    rw [h]
  · exact framerKeeps_refl s
  · exact framerKeeps_refl s
  · exact framerKeeps_evaluatePrefix (takeByte s)
  · exact framerKeeps_refl s
  · exact framerKeeps_completeFrame (countBodyByte (takeByte s))
  · exact framerKeeps_refl s
  · exact framerKeeps_refl s

theorem evaluatePrefix_inp (s : State) : (evaluatePrefix s).inp = s.inp := by
  unfold evaluatePrefix
  split <;> rfl

theorem completeFrame_inp (s : State) : (completeFrame s).inp = s.inp := by
  rcases completeFrame_cases s with ⟨M, trail, -, h⟩ | ⟨e, -, h⟩ <;> rw [h] <;> rfl

/-- A framer in a frame takes exactly the offered byte (R232, R234). -/
theorem framerStep_inp_of_cons {s : State} {b : Byte} {rest : Bytes} (hp : s.fr.phase ≠ .idle)
    (hb : s.inp.bytes = b :: rest) : (framerStep s).inp = { s.inp with bytes := rest } := by
  cases hphase : s.fr.phase with
  | idle => exact absurd hphase hp
  | inPrefix =>
    rw [framerStep_inPrefix hphase (inValid_of_cons hb)]
    split <;> simp [evaluatePrefix_inp, hb]
  | inBody =>
    rw [framerStep_inBody hphase (inValid_of_cons hb)]
    split <;> simp [completeFrame_inp, hb]

/-- Settles O39: with a byte offered the step commutes with the close, and takes that byte. -/
theorem framerTakesByteBeforeClose : Obligations.FramerTakesByteBeforeClose := by
  intro s b rest c hb
  refine ⟨?_, fun hp => framerStep_inp_of_cons hp hb⟩
  obtain ⟨-, ha, hcmd, -, hprogram, hevents⟩ := framerKeeps_framerStep s
  have hcommute := framerStep_withOutside s.a s.cmd s.program s.events c s (.inl (inValid_of_cons hb))
  refine hcommute.trans ?_
  simp only [withOutside, ← ha, ← hcmd, ← hprogram, ← hevents]

/-- The close is not the framer's to write (R44). -/
theorem framerStep_closed (s : State) : (framerStep s).inp.closed = s.inp.closed := by
  rcases framerStep_cases s with ⟨h, -⟩ | ⟨-, -, -, h⟩ | ⟨-, -, -, h⟩ | ⟨-, -, -, h⟩ | ⟨-, -, -, h⟩ | ⟨-, -, h⟩ | ⟨-, -, h⟩ <;>
    simp [h, evaluatePrefix_inp, completeFrame_inp]

/-- Settles O40: the step commutes with the operands, CMD and the pending inputs. -/
theorem framerIgnoresOperandsAndHost : Obligations.FramerIgnoresOperandsAndHost := by
  intro s a c program events
  have hcommute := framerStep_withOutside a c program events s.inp.closed s (.inr rfl)
  refine hcommute.trans ?_
  simp only [withOutside, ← framerStep_closed s]

end Sys2Proof.Machine
end

section
/-! Runs of the framer (44_stream_framer.md sections 2 and 3): a frame not yet complete is a function of the bytes taken, so a run of its steps
is an induction over the bytes offered: O41, O42. -/

namespace Sys2Proof.Machine

/-- The bytes of a frame that still needs more: its MessageLength field is not whole, or says so (R232 to R234). -/
def incompleteFrame (taken : Bytes) : Prop :=
  taken.length < 4 ∨ taken.length < (decode24 (slice taken 1 4)).toNat

/-- The framer's registers after the bytes of an incomplete frame (R45). -/
def receivingRegs (taken : Bytes) : FramerRegs :=
  if taken.length < 4 then ⟨.inPrefix, taken, 0⟩
  else ⟨.inBody, taken, BitVec.ofNat 24 ((decode24 (slice taken 1 4)).toNat - taken.length)⟩

/-- The machine with other framer registers, offered bytes and schedule. -/
def withFramer (s : State) (fr : FramerRegs) (offered : Bytes) (events : List Event) : State :=
  { s with fr := fr, inp := { s.inp with bytes := offered }, events := events }

theorem receivingRegs_start {taken : Bytes} (h : taken.length < 4) : receivingRegs taken = ⟨.inPrefix, taken, 0⟩ := if_pos h

theorem receivingRegs_body {taken : Bytes} (h : 4 ≤ taken.length) :
    receivingRegs taken = ⟨.inBody, taken, BitVec.ofNat 24 ((decode24 (slice taken 1 4)).toNat - taken.length)⟩ :=
  if_neg (by omega)

theorem receivingRegs_phase_ne_idle (taken : Bytes) : (receivingRegs taken).phase ≠ .idle := by
  unfold receivingRegs
  split <;> simp

/-- From the fourth byte on the MessageLength field stays as it is. -/
theorem lengthField_append {taken : Bytes} (more : Bytes) (h : 4 ≤ taken.length) :
    slice (taken ++ more) 1 4 = slice taken 1 4 := slice_append_left _ _ h

theorem lengthField_lt {taken : Bytes} (h : 4 ≤ taken.length) : (decode24 (slice taken 1 4)).toNat < 2 ^ 24 :=
  decode24_lt _ (by rw [slice_length]; omega)

theorem incompleteFrame_of_append {taken more : Bytes} (h : incompleteFrame (taken ++ more)) : incompleteFrame taken := by
  by_cases h4 : taken.length < 4
  · exact .inl h4
  · rw [incompleteFrame, lengthField_append more (by omega), List.length_append] at h
    exact .inr (by omega)

theorem need_sub_one {ml n : Nat} (h : n + 1 < ml) :
    BitVec.ofNat 24 (ml - n) - 1 = BitVec.ofNat 24 (ml - n - 1) := by
  bv_omega

/-- The byte after which the frame is still incomplete moves the framer on by that byte (R232 to R234). -/
theorem framerStep_receiving (s : State) {taken : Bytes} {b : Byte} (offered : Bytes) (es : List Event)
    (h : incompleteFrame (taken ++ [b])) :
    framerStep (withFramer s (receivingRegs taken) (b :: offered) es) =
      withFramer s (receivingRegs (taken ++ [b])) offered es := by
  have hlen : (taken ++ [b]).length = taken.length + 1 := by simp
  rcases Nat.lt_trichotomy taken.length 3 with hstore | hfourth | hbody
  · rw [receivingRegs_start (by omega), receivingRegs_start (by omega)]
    exact framerStep_stores rfl rfl hstore
  · have hmore := h.resolve_left (by omega)
    rw [receivingRegs_start (by omega), receivingRegs_body (by omega), hlen, hfourth]
    exact (framerStep_evaluates rfl rfl hfourth).trans
      (evaluatePrefix_body (withFramer s ⟨.inPrefix, taken ++ [b], 0⟩ offered es) (lt_of_eq_of_lt (by omega) hmore))
  · have hmore := h.resolve_left (by omega)
    have hlt := lengthField_lt (taken := taken) hbody
    rw [lengthField_append _ hbody, hlen] at hmore
    have hneed : BitVec.ofNat 24 ((decode24 (slice taken 1 4)).toNat - taken.length) ≠ 1 := by bv_omega
    rw [receivingRegs_body hbody, receivingRegs_body (by omega), lengthField_append _ hbody, hlen, Nat.sub_add_eq,
      ← need_sub_one (by omega)]
    exact framerStep_counts rfl rfl hneed

theorem framerEnabled_receiving_cons (s : State) (taken : Bytes) (b : Byte) (offered : Bytes) (es : List Event) :
    framerEnabled (withFramer s (receivingRegs taken) (b :: offered) es) = true :=
  framerEnabled_of_valid (receivingRegs_phase_ne_idle taken) (inValid_of_cons rfl)

/-- One framer turn a byte, as long as the frame stays incomplete. -/
theorem runSteps_receiving (s : State) (part : Bytes) {taken offered : Bytes} {n : Nat} {es rest : List Event}
    (h : incompleteFrame (taken ++ part)) (hs : framerSchedule (part.length + n) es rest) :
    ∃ es', framerSchedule n es' rest ∧
      runSteps part.length (withFramer s (receivingRegs taken) (part ++ offered) es) = .next (withFramer s (receivingRegs (taken ++ part)) offered es') := by
  induction part generalizing taken es with
  | nil => exact ⟨es, by simpa using hs, by rw [List.append_nil]; rfl⟩
  | cons b part ih =>
    rw [List.append_cons] at h ⊢
    rw [List.length_cons, Nat.add_right_comm] at hs
    obtain ⟨es₁, hs₁, hstep⟩ :=
      step_of_framerSchedule (s := withFramer s (receivingRegs taken) (b :: (part ++ offered)) es) hs (framerEnabled_receiving_cons ..)
    obtain ⟨es', hs', hrun⟩ := ih h hs₁
    refine ⟨es', hs', (runSteps_succ _ hstep).trans ?_⟩
    rw [← hrun]
    congr 1
    exact framerStep_receiving s (part ++ offered) es₁ (incompleteFrame_of_append h)

/-- The turn after those bytes is one more framer step, whatever it does. -/
theorem runSteps_receiving_last (s : State) {part offered : Bytes} {es rest : List Event}
    (h : incompleteFrame part) (hs : framerSchedule (part.length + 1) es rest)
    (hen : framerEnabled (withFramer s (receivingRegs part) offered rest) = true) :
    runSteps (part.length + 1) (withFramer s (receivingRegs []) (part ++ offered) es) = .next (framerStep (withFramer s (receivingRegs part) offered rest)) := by
  obtain ⟨es', hs', hrun⟩ := runSteps_receiving s part (taken := []) (offered := offered) h hs
  obtain ⟨es₀, hs₀, hstep⟩ := step_of_framerSchedule (s := withFramer s (receivingRegs part) offered es') hs' hen
  obtain rfl := framerSchedule_zero hs₀
  rw [runSteps_add _ _ hrun]
  exact (runSteps_succ 0 hstep).trans rfl

/-- The state FRAME leaves is the one with nothing taken (R231). -/
theorem eq_withFramer_nil {s : State} {offered : Bytes} (hfr : s.fr = { phase := .inPrefix, buf := [], need := 0 })
    (hin : s.inp.bytes = offered) : s = withFramer s (receivingRegs []) offered s.events := by
  rw [withFramer, receivingRegs_start (by simp), ← hfr, ← hin]

/-- A run from the state FRAME leaves: one turn for each byte of an incomplete frame, and one more. -/
theorem runSteps_from_frame {s : State} {part offered : Bytes} {es : List Event}
    (hs : framerSchedule (part.length + 1) s.events es) (hfr : s.fr = { phase := .inPrefix, buf := [], need := 0 })
    (hin : s.inp.bytes = part ++ offered) (hinc : incompleteFrame part)
    (hen : framerEnabled (withFramer s (receivingRegs part) offered es) = true) :
    runSteps (part.length + 1) s = .next (framerStep (withFramer s (receivingRegs part) offered es)) := by
  conv_lhs => rw [eq_withFramer_nil hfr hin]
  exact runSteps_receiving_last s hinc hs hen

/-- A frame of its own MessageLength: its last byte, taken in the body with one byte needed, completes it (R236). -/
theorem runSteps_wholeFrame {s : State} {frame rest : Bytes} {es : List Event}
    (hs : framerSchedule frame.length s.events es) (hfr : s.fr = { phase := .inPrefix, buf := [], need := 0 })
    (hin : s.inp.bytes = frame ++ rest) (h5 : 5 ≤ frame.length) (hml : (decode24 (slice frame 1 4)).toNat = frame.length) :
    runSteps frame.length s = .next (completeFrame (withFramer s ⟨.inBody, frame, 0⟩ rest es)) := by
  obtain ⟨part, b, rfl⟩ := (List.eq_nil_or_concat' frame).resolve_left (by rintro rfl; simp at h5)
  have hlen : (part ++ [b]).length = part.length + 1 := by simp
  have h4 : 4 ≤ part.length := by omega
  rw [lengthField_append _ h4, hlen] at hml
  rw [hlen] at hs
  have hrun := runSteps_from_frame (offered := b :: rest) hs hfr (by rw [hin, List.append_assoc]; rfl)
    (.inr (by omega)) (framerEnabled_receiving_cons ..)
  have hregs : receivingRegs part = ⟨.inBody, part, 1⟩ := by
    rw [receivingRegs_body h4, hml, Nat.add_sub_cancel_left]
    rfl
  rw [hlen, hrun, hregs]
  exact congrArg _ (framerStep_completes rfl rfl rfl)

/-- Settles O41: a whole frame ends by `completeFrame`, a too short one at its fourth byte. -/
theorem frameReceivesWholeMessage : Obligations.FrameReceivesWholeMessage := by
  refine ⟨fun s frame rest es hs _ hfr hin h5 hml => ?_, fun s frame rest es hs _ hfr hin h4 hml => ?_⟩
  · have hu32 : decode24 (slice frame 1 4) = BitVec.ofNat 32 frame.length := by rw [← hml]; simp
    rw [runSteps_wholeFrame hs hfr hin h5 hml, ← hu32]
    unfold completeFrame
    change Host.Outcome.next (match msgDecode s.params.maxAvps frame with | .ok (M, trail) => _ | .error e => _) = _
    cases msgDecode s.params.maxAvps frame <;> rfl
  · match frame, h4 with
    | [p0, p1, p2, b], _ =>
      have hdec : decode24 (slice [p0, p1, p2, b] 1 4) = 0#8 ++ (p1 ++ p2 ++ b) := decode24_three p1 p2 b
      have hle : (p1 ++ p2 ++ b).toNat ≤ 4 := by rwa [hdec, zero_append_toNat] at hml
      have hrun := runSteps_from_frame (part := [p0, p1, p2]) (offered := b :: rest) hs hfr hin (.inl (Nat.lt_succ_self 3))
        (framerEnabled_receiving_cons ..)
      obtain ⟨-, hfourth⟩ := framerTakesPrefixByte
      have hlast := hfourth (withFramer s (receivingRegs [p0, p1, p2]) (b :: rest) es) p0 p1 p2 b rest rfl rfl rfl
      rw [if_pos hle] at hlast
      rw [hdec]
      exact hrun.trans (congrArg _ hlast)

/-- Settles O42: the bytes offered before the close are taken one a turn, and the turn after them finds none. -/
theorem frameEndsWhenStreamCloses : Obligations.FrameEndsWhenStreamCloses := by
  intro s part es hs _ hfr hin hinc
  have hclosed : s.inp.closed = true := by rw [hin]
  have hbusy := receivingRegs_phase_ne_idle part
  have hrun := runSteps_from_frame (offered := []) hs hfr (by rw [hin, List.append_nil]) hinc
    (framerEnabled_of_closed hbusy hclosed)
  obtain ⟨hend, -⟩ := framerWithoutOfferedByte
  rw [hrun, hend (withFramer s (receivingRegs part) [] es) hbusy rfl hclosed]
  by_cases h4 : part.length < 4
  · simp [withFramer, receivingRegs_start h4, h4, hclosed]
  · simp [withFramer, receivingRegs_body (Nat.le_of_not_lt h4), h4, hclosed]

end Sys2Proof.Machine
end

section
/-! The command words (30_encoding.md), the STATUS word and the reset values (10_state.md sections 7 and 10): O48 to O50, O52. -/

namespace Sys2Proof.Machine

theorem decodeCmd_encode (i : Instr) : decodeCmd (encode i) = .ok i := by
  cases i <;> rfl

/-- Each row of the opcode map holds the word of its command (R95). -/
theorem encode_of_mem_opcodeTable : ∀ row ∈ opcodeTable, encode row.2 = row.1 := by decide

theorem decodeCmd_eq_ok_iff (v : Byte) (i : Instr) : decodeCmd v = .ok i ↔ encode i = v := by
  constructor
  · intro h
    unfold decodeCmd at h
    split at h
    · rename_i row hfind
      cases h
      have hword : row.1 = v := by simpa using List.find?_some hfind
      rw [encode_of_mem_opcodeTable row (List.mem_of_find?_eq_some hfind), hword]
    · cases h
  · rintro rfl
    exact decodeCmd_encode i

/-- Settles O49: a row found holds the value, and a command's word is found in its own row. -/
theorem commandWordsAgree : Obligations.CommandWordsAgree :=
  ⟨decodeCmd_eq_ok_iff, rfl, rfl, rfl, rfl, rfl, rfl⟩

/-- The STATUS word from DEFECT, BUSY and the four bits of CODE (R40). -/
def statusBits (d b : Bool) (c : BitVec 4) : BitVec 16 := 0#10 ++ BitVec.ofBool d ++ BitVec.ofBool b ++ c

theorem statusWord_eq_statusBits (s : State) :
    statusWord s = statusBits s.status.defect s.status.busy (codeBits s.status.code) := rfl

theorem statusBits_layout : ∀ (d b : Bool) (c : BitVec 4),
    (statusBits d b c).extractLsb' 0 4 = c ∧ (statusBits d b c).getLsbD 4 = b ∧ (statusBits d b c).getLsbD 5 = d ∧
    (statusBits d b c).extractLsb' 6 10 = 0 ∧
    (statusBits d b c).toNat = c.toNat + 16 * b.toNat + 32 * d.toNat := by
  decide

theorem codeBits_toNat (c : Code) : (codeBits c).toNat = codeNumber c := by
  cases c <;> rfl

/-- Settles O48: `statusBits_layout` at the state's own fields. -/
theorem statusWordLayout : Obligations.StatusWordLayout := by
  intro s
  obtain ⟨hcode, hbusy, hdefect, hzero, hnat⟩ :=
    statusBits_layout s.status.defect s.status.busy (codeBits s.status.code)
  rw [codeBits_toNat] at hnat
  rw [statusWord_eq_statusBits]
  exact ⟨hcode, hbusy, hdefect, hzero, hnat, rfl⟩

/-- Settles O50: the reset state is a literal. -/
theorem resetValues : Obligations.ResetValues := ⟨rfl, rfl, rfl, rfl, rfl, rfl⟩

/-- Settles O52: the reset state has an idle framer, empty buffers and unbounded parameters. -/
theorem resetMeetsInvariant : Obligations.ResetMeetsInvariant := rfl

end Sys2Proof.Machine
end

section
/-! One step of the machine by whose turn it is (10_state.md section 1): the host's next action, its hold, and the events from outside:
O44 to O47, O51, O60. -/

namespace Sys2Proof.Machine

theorem step_of_event {s : State} {e : Event} {es : List Event} (h : s.events = e :: es) :
    step s = takeEvent e { s with events := es } := by
  simp [step, h]

/-- Settles O51: the reset is of the state whose schedule no longer lists it. -/
theorem resetKeepsStreamOnly : Obligations.ResetKeepsStreamOnly := fun _ _ h => step_of_event h

theorem offerBytes_of_open {s : State} (bs : Bytes) (h : s.inp.closed = false) :
    offerBytes bs s = { s with inp := { bytes := s.inp.bytes ++ bs, closed := false } } := by
  simp [offerBytes, h]

theorem offerBytes_of_closed {s : State} (bs : Bytes) (h : s.inp.closed = true) : offerBytes bs s = s := by
  simp [offerBytes, h]

/-- Settles O60: each event's effect on the state whose schedule no longer lists it. -/
theorem eventsTakeEffect : Obligations.EventsTakeEffect := by
  refine ⟨fun s es h => step_of_event h, step_of_framerEnabled, fun s bs es h hopen => ?_, fun s bs es h hclosed => ?_,
    fun s es h => step_of_event h⟩
  · exact (step_of_event h).trans (congrArg Host.Outcome.next (offerBytes_of_open (s := { s with events := es }) bs hopen))
  · exact (step_of_event h).trans (congrArg Host.Outcome.next (offerBytes_of_closed (s := { s with events := es }) bs hclosed))

/-! ## The host's turn -/

theorem hostTurn_of_not_held {s : State} {act : HostAction} {rest : List HostAction} (hp : s.program = act :: rest)
    (hh : hostHeld s = false) : hostTurn s = hostAct act { s with program := rest } := by
  simp [hostTurn, hp, hh]

theorem hostHeld_of_command {s : State} {v : Byte} {rest : List HostAction} (hp : s.program = .command v :: rest) :
    hostHeld s = s.status.busy := by
  simp [hostHeld, hp]

/-- Only a CMD write is ever held (R22, R71). -/
theorem hostHeld_of_other {s : State} {act : HostAction} {rest : List HostAction} (hp : s.program = act :: rest)
    (hact : ∀ v, act ≠ .command v) : hostHeld s = false := by
  unfold hostHeld
  rw [hp]
  split
  · rename_i v _ heq
    exact absurd (List.cons.inj heq).1 (hact v)
  · rfl

/-- A CMD write with BUSY = 0 is issued on the host's turn (R21). -/
theorem hostTurn_of_command {s : State} {v : Byte} {rest : List HostAction} (hp : s.program = .command v :: rest)
    (hbusy : s.status.busy = false) : hostTurn s = issueCommand v { s with program := rest } :=
  hostTurn_of_not_held hp ((hostHeld_of_command hp).trans hbusy)

/-- With BUSY = 1 it is held (R22). -/
theorem hostTurn_of_held {s : State} {v : Byte} {rest : List HostAction} (hp : s.program = .command v :: rest)
    (hbusy : s.status.busy = true) : hostTurn s = .next s := by
  simp [hostTurn, hp, hostHeld_of_command hp, hbusy]

theorem issueCommand_of_ok {v : Byte} {i : Instr} (h : decodeCmd v = .ok i) (s : State) :
    issueCommand v s = exec i { s with cmd := v } := by
  simp [issueCommand, h]

theorem tableByte_toNat (v : Byte) : tableByte 8 v.toNat = v := by
  rw [tableByte, Nat.mod_eq_of_lt v.isLt, BitVec.ofNat_toNat, BitVec.setWidth_eq]

/-- Settles O44: the host's turn issues the pending command, however the turn came about. -/
theorem stepRunsIssuedCommand : Obligations.StepRunsIssuedCommand := by
  have hissue : ∀ (s : State) (v : Byte) (i : Instr) (rest : List HostAction) (es : List Event), decodeCmd v = .ok i →
      s.program = .command v :: rest → s.status.busy = false →
      hostTurn { s with events := es } = exec i { s with cmd := v, program := rest, events := es } :=
    fun s v i rest es hv hp hbusy =>
      (hostTurn_of_command (s := { s with events := es }) hp hbusy).trans (issueCommand_of_ok hv _)
  refine ⟨fun s v i rest es hv hp hbusy hes => ?_, fun s v i rest hv hp hbusy hes hen => ?_, fun s i => ?_⟩
  · rw [step_of_hostTurn (.inl hes), hissue s v i rest es hv hp hbusy]
  · rw [step_of_hostTurn (.inr ⟨hes, rfl, hen⟩), hissue s v i rest [] hv hp hbusy, ← hes]
  · have hfetch := hissue (s.withFetchWord 8 (encode i).toNat) (encode i) i s.program s.events (decodeCmd_encode i)
      (by simp only [State.withFetchWord, tableByte_toNat]) rfl
    exact (step_of_hostTurn (.inl rfl)).trans hfetch

/-- Settles O45: the held host's turn leaves the state. -/
theorem commandHeldWhileBusy : Obligations.CommandHeldWhileBusy := by
  refine ⟨fun s v rest es hp hbusy hes => ?_, fun s v rest hp hbusy hes hen => ?_⟩
  · rw [step_of_hostTurn (.inl hes)]
    exact hostTurn_of_held hp hbusy
  · rw [step_of_hostTurn (.inr ⟨hes, rfl, hen⟩), ← hes]
    exact hostTurn_of_held hp hbusy

/-- A value that is no command's word raises IllegalCommand (R96, R264). -/
theorem issueCommand_of_unassigned {v : Byte} (hv : ∀ i, encode i ≠ v) (s : State) :
    decodeCmd v = .error (.unassigned v) ∧ issueCommand v s = .next (illegalCommand { s with cmd := v }) := by
  rcases issueCommand_cases v s with ⟨i, hi, -⟩ | h
  · exact absurd ((decodeCmd_eq_ok_iff v i).mp hi) (hv i)
  · exact h

/-- The values by their group in bits 7:4 (R94). -/
theorem range_eq_groups (k : Nat) : List.range (16 * k) = (List.range k).flatMap fun g => List.range' (16 * g) 16 := by
  induction k with
  | zero => rfl
  | succ k ih =>
    rw [Nat.mul_succ, List.range_add, ih, List.range_succ (n := k), List.flatMap_append, List.flatMap_singleton,
      List.range'_eq_map_range]

/-- How many values of each group are unassigned (R95). -/
theorem unassigned_in_groups :
    (List.range 16).map (fun g => ((List.range' (16 * g) 16).filter fun n => decodeTableWord 8 n == none).length) =
      [14, 14, 14, 5, 15] ++ List.replicate 11 16 := by decide

theorem unassigned_count : ((List.range 256).filter (fun n => decodeTableWord 8 n == none)).length = 238 := by
  rw [range_eq_groups 16, List.filter_flatMap, List.length_flatMap, unassigned_in_groups]
  rfl

/-- Settles O46: the values are counted, and a value outside the map is raised on the host's turn. -/
theorem unassignedCommandIsIllegal : Obligations.UnassignedCommandIsIllegal := by
  refine ⟨unassigned_count, fun v hv => ?_, fun s v hv => ?_, fun s v rest es hv hp hbusy hturn => ?_⟩
  · obtain ⟨hdec, -⟩ := issueCommand_of_unassigned hv State.reset
    exact hdec
  · obtain ⟨-, hissue⟩ := issueCommand_of_unassigned hv s
    exact hissue
  · obtain ⟨-, hissue⟩ := issueCommand_of_unassigned hv { s with program := rest, events := es }
    rw [step_of_hostTurn hturn]
    exact (hostTurn_of_command (s := { s with events := es }) hp hbusy).trans hissue

/-- Settles O47: no action but a CMD write is held, and each writes its own register where the value fits. -/
theorem hostWritesOperandRegisters : Obligations.HostWritesOperandRegisters := by
  refine ⟨fun s act rest es hact hp hturn => ?_, fun s => ⟨fun v h => if_pos h, fun v h => ?_, fun v => rfl, fun v => rfl,
    fun v => rfl, fun v h => if_pos h, fun v h => ?_, fun q => rfl, fun q => rfl⟩⟩
  · rw [step_of_hostTurn hturn]
    exact hostTurn_of_not_held hp (hostHeld_of_other (s := { s with events := es }) hp hact)
  · exact if_neg (by simpa [hostWriteFits] using h)
  · exact if_neg (by simpa [hostWriteFits] using h)

end Sys2Proof.Machine
end

section
/-! Everything a command can do (60_exceptions.md, 10_state.md section 4): its outcome, what it stores in MSG, what it keeps, and that it
reads no previous result: O54 to O57, and DEFECT at the command: the first clause of O58. -/

namespace Sys2Proof.Machine

/-! ## Outcomes -/

theorem conclude_code_mem {codes : List Code} {res : Except Code (ResultRegs × Message)} {s t : State}
    (hok : .ok ∈ codes) (herr : ∀ e, res = .error e → e ∈ codes) (h : conclude res s = .next t) :
    t.status.code ∈ codes := by
  rcases conclude_cases res s with ⟨r, m, -, hc⟩ | ⟨e, he, hc⟩
  · rw [hc] at h; cases h; exact hok
  · rw [hc] at h; cases h; exact herr e he

/-- A command's step writes one of its own outcomes (R262). -/
theorem exec_code_mem {i : Instr} {s t : State} (hi : i ≠ .frame) (h : exec i s = .next t) :
    t.status.code ∈ outcomesOf i := by
  cases i with
  | frame => exact absurd rfl hi
  | dec24 => exact conclude_code_mem (by simp [outcomesOf]) (fun e he => by simp [dec24_error (map_error he), outcomesOf]) h
  | hdrdec =>
    exact conclude_code_mem (by simp [outcomesOf]) (fun e he => by simp [headerDecode_error (map_error he), outcomesOf]) h
  | avpdec =>
    refine conclude_code_mem (by simp [outcomesOf]) (fun e he => ?_) h
    rcases avpDecode_error (map_error he) with rfl | rfl | rfl <;> simp [outcomesOf]
  | avpenc =>
    refine conclude_code_mem (by simp [outcomesOf]) (fun e he => ?_) h
    rcases avpenc_error (map_error he) with rfl | rfl <;> simp [outcomesOf]
  | msgdec =>
    refine conclude_code_mem (by simp [outcomesOf]) (fun e he => ?_) h
    rcases msgDecode_error (map_error he) with rfl | rfl | rfl | rfl | rfl | rfl <;> simp [outcomesOf]
  | msgenc =>
    cases henc : msgEncode s.msg with
    | ok p =>
      obtain ⟨rfl, -⟩ := msgEncode_ok_inv henc
      rw [exec_msgenc_of_ok henc] at h
      cases h; simp [msgencDone, outcomesOf]
    | error e =>
      rcases msgEncode_error henc with rfl | rfl
      · rw [exec_msgenc_of_empty henc] at h
        cases h; simp [outcomesOf]
      · rw [exec_msgenc_of_long henc] at h
        cases h; simp [outcomesOf]
  | msgapp =>
    simp only [exec, execMsgapp] at h
    split at h <;> cases h <;> simp [outcomesOf]
  | msgget =>
    simp only [exec, execMsgget] at h
    split at h <;> cases h <;> simp [outcomesOf]
  | msgdel =>
    simp only [exec, execMsgdel] at h
    split at h <;> cases h <;> simp [outcomesOf]
  | enc24 | hdrenc | msglen | msgsetl | msggetl | msgseth | msggeth | msgclr => cases h; simp [outcomesOf]

/-! ## Failure -/

/-- Settles O55: a raise writes no more than this, and DEFECT is set exactly with LengthMismatch. -/
theorem failedCommandCommitsNothing : Obligations.FailedCommandCommitsNothing := by
  intro i s t hi h hcode
  rcases exec_cases i hi s with ⟨r, m, hx⟩ | ⟨e, -, he, hx⟩ | ⟨rfl, hx⟩ <;> rw [hx] at h <;> cases h
  · exact absurd rfl hcode
  · have hne : (e == Code.lengthMismatch) = false := by simpa using he
    simp [raise, hne]
  · simp [raise, setDefect]

theorem exec_msg_of_failed {i : Instr} {s t : State} (hi : i ≠ .frame) (h : exec i s = .next t) (hcode : t.status.code ≠ .ok) :
    t.msg = s.msg := by
  rw [failedCommandCommitsNothing i s t hi h hcode]

/-! ## What a success stores in MSG -/

/-- The message a command leaves where it ends OK (R181, R192, R193, R200 to R209). -/
def storesOnSuccess (i : Instr) (s : State) (m : Message) : Prop :=
  match i with
  | .msglen | .msgenc => m = withMessageLength s.msg (totalLength s.msg)
  | .msgdec => ∃ trail, msgDecode s.params.maxAvps s.a.buf = .ok (m, trail)
  | .msgdel => m.hdr = s.msg.hdr ∧ m.avps.length ≤ s.msg.avps.length
  | .msgsetl => m = { s.msg with avps := s.a.list }
  | .msgseth => m = { s.msg with hdr := s.a.hdr }
  | .msgapp => m = { s.msg with avps := s.msg.avps ++ [s.a.avp] } ∧ listFull s.params.maxAvps s.msg.avps.length = false
  | .msgclr => m = Message.empty
  | .dec24 | .enc24 | .hdrdec | .hdrenc | .avpdec | .avpenc | .msgget | .msggetl | .msggeth | .frame => m = s.msg

/-- A command that concludes with MSG as it was. -/
theorem conclude_map_msg {α : Type} {res : Except Code α} {f : α → ResultRegs × Message} {s t : State}
    (hf : ∀ x, (f x).2 = s.msg) (h : conclude (res.map f) s = .next t) : t.msg = s.msg := by
  cases res with
  | ok x => rw [conclude_map_of_ok f s rfl] at h; cases h; exact hf x
  | error e => rw [conclude_map_of_error f s rfl] at h; cases h; rfl

theorem exec_stores {i : Instr} {s t : State} (h : exec i s = .next t) (hcode : t.status.code = .ok) :
    storesOnSuccess i s t.msg := by
  cases i with
  | dec24 => exact conclude_map_msg (fun _ => rfl) h
  | hdrdec => exact conclude_map_msg (fun _ => rfl) h
  | avpdec => exact conclude_map_msg (fun _ => rfl) h
  | avpenc => exact conclude_map_msg (fun _ => rfl) h
  | msgenc =>
    obtain ⟨rfl, -⟩ := exec_msgenc_ok_inv h hcode
    rfl
  | msgdec =>
    cases hdec : msgDecode s.params.maxAvps s.a.buf with
    | ok p =>
      have hx : exec .msgdec s = _ := conclude_map_of_ok _ s hdec
      rw [hx] at h
      cases h; exact ⟨p.2, hdec⟩
    | error e =>
      rw [exec_msgdec_of_error hdec] at h
      cases h
      obtain rfl : e = .ok := hcode
      rcases msgDecode_error hdec with h | h | h | h | h | h <;> cases h
  | msgget =>
    simp only [exec, execMsgget] at h
    split at h <;> cases h <;> rfl
  | msgdel =>
    cases hfind : firstIndex s.msg.avps s.a.u32 with
    | none =>
      rw [exec_msgdel_of_none hfind] at h
      cases h; exact ⟨rfl, le_rfl⟩
    | some k =>
      rw [exec_msgdel_of_some hfind] at h
      cases h
      refine ⟨rfl, ?_⟩
      simp only [succeed_msg, List.length_append, List.length_take, List.length_drop]
      omega
  | msgapp =>
    simp only [exec, execMsgapp] at h
    split at h
    · cases h; cases hcode
    · rename_i hfull
      cases h; exact ⟨rfl, by simpa using hfull⟩
  | enc24 | hdrenc | msglen | msgsetl | msggetl | msgseth | msggeth | msgclr | frame => cases h; rfl

/-! ## What a command keeps -/

/-- What no command but FRAME writes: operands, CMD, BUSY, the framer, the stream, the parameters and what is still to come. -/
def commandKeeps (s t : State) : Prop :=
  t.a = s.a ∧ t.cmd = s.cmd ∧ t.status.busy = s.status.busy ∧ t.fr = s.fr ∧ t.inp = s.inp ∧ t.params = s.params ∧
    t.program = s.program ∧ t.events = s.events

theorem exec_completes (i : Instr) (hi : i ≠ .frame) (s : State) : ∃ t, exec i s = .next t ∧ commandKeeps s t := by
  rcases exec_cases i hi s with ⟨r, m, h⟩ | ⟨e, -, -, h⟩ | ⟨-, h⟩ <;>
    exact ⟨_, h, rfl, rfl, rfl, rfl, rfl, rfl, rfl, rfl⟩

/-- A property of MSG that holds before a command and of what it stores holds after it. -/
theorem exec_msg_property {i : Instr} {s t : State} (P : Message → Prop) (hi : i ≠ .frame) (h : exec i s = .next t)
    (hbefore : P s.msg) (hstores : ∀ m, storesOnSuccess i s m → P m) : P t.msg := by
  by_cases hcode : t.status.code = .ok
  · exact hstores _ (exec_stores h hcode)
  · rwa [exec_msg_of_failed hi h hcode]

/-- Settles O54: every command completes by `exec_cases`, and `exec_stores` tells which part of MSG it may write. -/
theorem everyCommandCompletesInItsFrame : Obligations.EveryCommandCompletesInItsFrame := by
  refine ⟨fun i s hi => ?_, fun s => ⟨_, rfl, rfl⟩⟩
  obtain ⟨t, h, ha, hcmd, hbusy, hfr, hinp, hparams, hprogram, hevents⟩ := exec_completes i hi s
  refine ⟨t, h, ha, hcmd, hbusy, hfr, hinp, hparams, hprogram, hevents, fun hmem => ?_, fun hmem => ?_, fun hmem => ?_⟩
  · refine exec_msg_property (fun m => m = s.msg) hi h rfl fun m hm => ?_
    simp only [List.mem_cons, List.not_mem_nil, or_false] at hmem
    rcases hmem with rfl | rfl | rfl | rfl | rfl | rfl | rfl | rfl | rfl <;> exact hm
  · refine exec_msg_property (fun m => m.avps = s.msg.avps) hi h rfl fun m hm => ?_
    simp only [List.mem_cons, List.not_mem_nil, or_false] at hmem
    rcases hmem with rfl | rfl | rfl <;> exact (congrArg Message.avps hm).trans rfl
  · refine exec_msg_property (fun m => m.hdr = s.msg.hdr) hi h rfl fun m hm => ?_
    simp only [List.mem_cons, List.not_mem_nil, or_false] at hmem
    rcases hmem with rfl | rfl | rfl
    · obtain ⟨hhdr, -⟩ := hm
      exact hhdr
    · exact (congrArg Message.hdr hm).trans rfl
    · obtain ⟨rfl, -⟩ := hm
      rfl

/-! ## No command reads a previous result (D5, D13) -/

theorem conclude_previous (res : Except Code (ResultRegs × Message)) (s : State) (previous : ResultRegs) (c : Code) :
    conclude res { s with r := previous, status := { s.status with code := c } } = conclude res s := by
  rcases res with e | ⟨r, m⟩ <;> rfl

/-- Settles O57: what a command concludes with is computed from operands, parameters and MSG alone. -/
theorem commandsIgnorePreviousResults : Obligations.CommandsIgnorePreviousResults := by
  intro i s previous c hi
  cases i with
  | frame => exact absurd rfl hi
  | dec24 => exact conclude_previous _ s previous c
  | hdrdec => exact conclude_previous _ s previous c
  | avpdec => exact conclude_previous _ s previous c
  | avpenc => exact conclude_previous _ s previous c
  | msgdec => exact conclude_previous _ s previous c
  | msgenc =>
    simp only [exec, execMsgenc]
    split <;> rfl
  | msgget =>
    simp only [exec, execMsgget]
    split <;> rfl
  | msgdel =>
    simp only [exec, execMsgdel]
    split <;> rfl
  | msgapp =>
    simp only [exec, execMsgapp]
    split <;> rfl
  | enc24 | hdrenc | msglen | msgsetl | msggetl | msgseth | msggeth | msgclr => rfl

/-- DEFECT after a command: set by MSGENC's LengthMismatch and otherwise as it was (R43, R191). -/
theorem exec_defect {i : Instr} {s t : State} (h : exec i s = .next t) :
    t.status.defect = (s.status.defect || (i == .msgenc && t.status.code == .lengthMismatch)) := by
  by_cases hi : i = .frame
  · subst hi
    cases h
    simp
  · rcases exec_cases i hi s with ⟨r, m, hx⟩ | ⟨e, -, he, hx⟩ | ⟨rfl, hx⟩ <;> rw [hx] at h <;> cases h
    · have hne : (Code.ok == Code.lengthMismatch) = false := rfl
      simp [hne]
    · have hne : (e == Code.lengthMismatch) = false := by simpa using he
      simp [hne]
    · simp

end Sys2Proof.Machine
end

section
/-! What a framer step ends with and what writes MessageLength and DEFECT (70_reset_and_hazards.md): O56, O58, O59. -/

namespace Sys2Proof.Machine

/-! ## The end of a frame -/

theorem mem_frameOutcomes_of_msgDecode {limit : Option Nat} {B : Bytes} {e : Code} (h : msgDecode limit B = .error e) :
    e ∈ frameOutcomes ∧ e ≠ .ok := by
  rcases msgDecode_error h with rfl | rfl | rfl | rfl | rfl | rfl <;> simp [frameOutcomes]

/-- A framer step that has ended a frame: one of a frame's outcomes, and MSG the decoded frame exactly where it is OK (R236, R237). -/
def framerEnded (s t : State) : Prop :=
  t.status.busy = false ∧ t.status.code ∈ frameOutcomes ∧ (t.status.code ≠ .ok → t.msg = s.msg) ∧
    (t.status.code = .ok → ∃ trail, msgDecode s.params.maxAvps t.r.buf = .ok (t.msg, trail))

/-- A framer step that has not: no outcome, no result, MSG as it was. -/
def framerGoesOn (s t : State) : Prop := t.status = s.status ∧ t.r = s.r ∧ t.msg = s.msg

theorem framerEnded_finishFrame {s u : State} {e : Code} (ml : U32) (trail : BitVec 3) (he : e ∈ frameOutcomes)
    (hne : e ≠ .ok) (hmsg : u.msg = s.msg) : framerEnded s (finishFrame e ml trail u) :=
  ⟨rfl, he, fun _ => hmsg, fun hok => absurd hok hne⟩

theorem framerEnded_completeFrame {s u : State} (hparams : u.params = s.params) (hmsg : u.msg = s.msg) :
    framerEnded s (completeFrame u) := by
  rcases completeFrame_cases u with ⟨M, trail, hdec, h⟩ | ⟨e, hdec, h⟩ <;> rw [h]
  · exact ⟨rfl, by simp [frameOutcomes], fun hne => absurd rfl hne, fun _ => ⟨trail, hparams ▸ hdec⟩⟩
  · obtain ⟨he, hne⟩ := mem_frameOutcomes_of_msgDecode hdec
    exact framerEnded_finishFrame _ _ he hne hmsg

/-- A framer step ends a frame or goes on with it (R239). -/
theorem framerStep_ends_or_goes_on (s : State) : framerGoesOn s (framerStep s) ∨ framerEnded s (framerStep s) := by
  rcases framerStep_cases s with ⟨h, -⟩ | ⟨-, -, -, h⟩ | ⟨-, -, -, h⟩ | ⟨-, -, -, h⟩ | ⟨-, -, -, h⟩ | ⟨-, -, h⟩ | ⟨-, -, h⟩ <;>
    rw [h]
  · exact .inl ⟨rfl, rfl, rfl⟩
  · exact .inl ⟨rfl, rfl, rfl⟩
  · by_cases hml : (frameLength (takeByte s)).toNat ≤ 4
    · rw [evaluatePrefix_end _ hml]
      exact .inr (framerEnded_finishFrame _ _ (by simp [frameOutcomes]) (by simp) rfl)
    · rw [evaluatePrefix_body _ (by omega)]
      exact .inl ⟨rfl, rfl, rfl⟩
  · exact .inl ⟨rfl, rfl, rfl⟩
  · exact .inr (framerEnded_completeFrame rfl rfl)
  · exact .inr (framerEnded_finishFrame _ _ (by simp [frameOutcomes]) (by simp) rfl)
  · exact .inr (framerEnded_finishFrame _ _ (by simp [frameOutcomes]) (by simp) rfl)

/-- Settles O56: a command's outcomes by `exec_code_mem`; a framer step with BUSY = 1 ends the frame exactly where it clears BUSY. -/
theorem outcomesAreTheListedOnes : Obligations.OutcomesAreTheListedOnes := by
  refine ⟨fun i s t => exec_code_mem, fun s hbusy hend => ?_, fun s hsame hbusy => ?_⟩
  · rcases framerStep_ends_or_goes_on s with ⟨hstatus, -, -⟩ | ⟨-, hcode, -, -⟩
    · rw [hstatus, hbusy] at hend
      cases hend
    · exact hcode
  · rcases framerStep_ends_or_goes_on s with hgoes | ⟨hend, -, -, -⟩
    · exact hgoes
    · rw [hsame, hbusy] at hend
      cases hend

/-! ## MessageLength -/

/-- A decoded message has the wire value of bytes 1 to 3 (R183). -/
theorem msgDecode_messageLength {limit : Option Nat} {B : Bytes} {M : Message} {trail : Nat}
    (h : msgDecode limit B = .ok (M, trail)) : M.hdr.messageLength = decode24 (slice B 1 4) := by
  obtain ⟨-, hH, -, -, -⟩ := (msgDecodeFindsExactBoundaries limit B M trail).mp h
  have hfield : slice (B.take 20) 1 4 = slice B 1 4 := by simp [slice, List.take_take]
  rw [headerDecode_messageLength hH, hfield]

/-- A command that leaves MessageLength both where it succeeds and where it fails. -/
theorem messageLength_kept {i : Instr} {s t : State} (hi : i ≠ .frame) (h : exec i s = .next t)
    (hstores : ∀ m, storesOnSuccess i s m → m.hdr = s.msg.hdr) : t.msg.hdr.messageLength = s.msg.hdr.messageLength := by
  rw [exec_msg_property (fun m => m.hdr = s.msg.hdr) hi h rfl hstores]

/-- Settles O59: what a success stores gives each command's value, and a frame's is the one of the frame it decoded. -/
theorem messageLengthWriters : Obligations.MessageLengthWriters := by
  refine ⟨fun i s t h => ?_, fun s hbusy => ?_⟩
  · cases i with
    | msgclr => cases h; rfl
    | msgseth => cases h; rfl
    | msglen => cases h; rfl
    | frame => cases h; rfl
    | msgenc =>
      simp only
      split
      · rename_i hcode
        have hm : t.msg = _ := exec_stores h hcode
        rw [hm]; rfl
      · rename_i hcode
        rw [exec_msg_of_failed (by simp) h hcode]
    | msgdec =>
      simp only
      split
      · rename_i hcode
        obtain ⟨trail, hdec⟩ := exec_stores h hcode
        exact msgDecode_messageLength hdec
      · rename_i hcode
        rw [exec_msg_of_failed (by simp) h hcode]
    | msgdel => exact messageLength_kept (by simp) h fun m hm => by obtain ⟨hhdr, -⟩ := hm; exact hhdr
    | msgapp => exact messageLength_kept (by simp) h fun m hm => by obtain ⟨rfl, -⟩ := hm; rfl
    | msgsetl => exact messageLength_kept (by simp) h fun m hm => (congrArg Message.hdr hm).trans rfl
    | dec24 | enc24 | hdrdec | hdrenc | avpdec | avpenc | msgget | msggetl | msggeth =>
      exact messageLength_kept (by simp) h fun m hm => congrArg Message.hdr hm
  · rcases framerStep_ends_or_goes_on s with ⟨hstatus, -, hmsg⟩ | ⟨hend, -, hfail, hok⟩
    · rw [hstatus, hmsg, if_neg (by simp [hbusy])]
    · by_cases hcode : (framerStep s).status.code = .ok
      · obtain ⟨trail, hdec⟩ := hok hcode
        rw [if_pos ⟨hend, hcode⟩, msgDecode_messageLength hdec]
      · rw [if_neg (by simp [hcode]), hfail hcode]

/-! ## DEFECT -/

/-- What a step can do, with the event or the empty schedule that gave the host its turn (R20, R290). -/
theorem step_turns {s t : State} (h : step s = .next t) :
    ∃ es, ((s.events = .hostTurn :: es ∨ s.events = [] ∧ es = []) ∧ hostTurn { s with events := es } = .next t) ∨
      t = framerStep { s with events := es } ∨
      (∃ bs, t = offerBytes bs { s with events := es }) ∨
      t = closeStream { s with events := es } ∨
      (s.events = .reset :: es ∧ t = resetBlock { s with events := es }) := by
  cases hes : s.events with
  | nil =>
    obtain ⟨es, hnil | ⟨e, he⟩, hcases⟩ := step_cases h
    · obtain ⟨-, rfl⟩ := hnil
      refine ⟨[], ?_⟩
      rcases hcases with hhost | hframer | ⟨bs, he, -⟩ | ⟨he, -⟩ | ⟨he, -⟩
      · exact .inl ⟨.inr ⟨rfl, rfl⟩, hhost⟩
      · exact .inr (.inl hframer)
      all_goals rw [hes] at he; cases he
    · rw [hes] at he; cases he
  | cons e es =>
    rw [step_of_event hes] at h
    refine ⟨es, ?_⟩
    cases e with
    | hostTurn => exact .inl ⟨.inl rfl, h⟩
    | framerTurn => cases h; exact .inr (.inl rfl)
    | offer bs => cases h; exact .inr (.inr (.inl ⟨bs, rfl⟩))
    | close => cases h; exact .inr (.inr (.inr (.inl rfl)))
    | reset => cases h; exact .inr (.inr (.inr (.inr ⟨rfl, rfl⟩)))

/-- The host's turn runs a pending MSGENC, with BUSY = 0, that ends in LengthMismatch. -/
def hostMismatch (s t : State) : Prop :=
  t.status.code = .lengthMismatch ∧ s.status.busy = false ∧
    ∃ rest, s.program = .command (encode .msgenc) :: rest ∧
      exec .msgenc { s with cmd := encode .msgenc, program := rest } = .next t

/-- Only such a turn of the host changes DEFECT. -/
theorem hostTurn_defect {s t : State} (h : hostTurn s = .next t) :
    t.status.defect = s.status.defect ∨ (t.status.defect = true ∧ hostMismatch s t) := by
  rcases hostTurn_cases h with rfl | ⟨act, rest, hp, hheld, hact⟩
  · exact .inl rfl
  rcases hostAct_cases hact with rfl | ⟨a, rfl, -⟩ | ⟨v, rfl, hissue⟩
  · exact .inl rfl
  · exact .inl rfl
  rcases issueCommand_cases v { s with program := rest } with ⟨i, hi, hx⟩ | ⟨-, hx⟩ <;> rw [hx] at hissue
  · have hdefect := exec_defect hissue
    by_cases hset : i = .msgenc ∧ t.status.code = .lengthMismatch
    · obtain ⟨rfl, hcode⟩ := hset
      obtain rfl := (decodeCmd_eq_ok_iff v .msgenc).mp hi
      refine .inr ⟨by simpa [hcode] using hdefect, hcode, ?_, rest, hp, hissue⟩
      rw [← hostHeld_of_command hp, hheld]
    · have hfalse : (i == .msgenc && t.status.code == .lengthMismatch) = false := by
        rw [Bool.eq_false_iff]
        simpa using hset
      rw [hfalse, Bool.or_false] at hdefect
      exact .inl hdefect
  · cases hissue
    exact .inl rfl

/-- What a step does to DEFECT: kept, set by the host's MSGENC, or cleared by a reset. -/
theorem step_defect {s t : State} (h : step s = .next t) :
    t.status.defect = s.status.defect ∨
    (t.status.defect = true ∧
      ∃ es, (s.events = .hostTurn :: es ∨ s.events = [] ∧ es = []) ∧ hostMismatch { s with events := es } t) ∨
    (t.status.defect = false ∧ ∃ es, s.events = .reset :: es) := by
  obtain ⟨es, ⟨hturn, hhost⟩ | rfl | ⟨bs, rfl⟩ | rfl | ⟨hes, rfl⟩⟩ := step_turns h
  · rcases hostTurn_defect hhost with hsame | ⟨hset, hmismatch⟩
    · exact .inl hsame
    · exact .inr (.inl ⟨hset, es, hturn, hmismatch⟩)
  · obtain ⟨-, -, -, hdefect, -, -⟩ := framerKeeps_framerStep { s with events := es }
    exact .inl hdefect
  · exact .inl (by rw [offerBytes_status])
  · exact .inl rfl
  · exact .inr (.inr ⟨rfl, es, hes⟩)

/-- Settles O58: `exec_defect` at the command, `step_defect` at the step. -/
theorem defectIsSticky : Obligations.DefectIsSticky := by
  refine ⟨fun i s t => exec_defect, fun s t h hclear hset => ?_, fun s t h hset => ?_⟩
  · rcases step_defect h with hsame | ⟨-, es, hturn, hcode, hbusy, rest, hp, hx⟩ | ⟨hfalse, -⟩
    · rw [hsame, hclear] at hset; cases hset
    · exact ⟨hcode, hbusy, rest, es, hp, hturn, hx⟩
    · rw [hfalse] at hset; cases hset
  · rcases step_defect h with hsame | ⟨htrue, -⟩ | ⟨-, hreset⟩
    · exact .inl (hsame.trans hset)
    · exact .inl htrue
    · exact .inr hreset

end Sys2Proof.Machine
end

section
/-! The machine's invariant (10_state.md sections 3, 4, 6 and 8; 00_scope.md section 3): the framer's part and the capacities, each kept by
a command, by the framer and by every event: O53. -/

namespace Sys2Proof.Machine

/-! ## The parts of the invariant -/

theorem machineInv_iff (s : State) :
    machineInv s = true ↔ s.params.wf = true ∧ framerOk s = true ∧ capacityOk s = true := by
  simp [machineInv, and_assoc]

theorem capacityOk_iff (s : State) :
    capacityOk s = true ↔
      withinLimit s.params.maxBuf s.a.buf.length = true ∧ withinLimit s.params.maxBuf s.r.buf.length = true ∧
      withinLimit s.params.maxBuf s.fr.buf.length = true ∧ withinLimit s.params.maxAvps s.a.list.length = true ∧
      withinLimit s.params.maxAvps s.r.list.length = true ∧ withinLimit s.params.maxAvps s.msg.avps.length = true := by
  simp [capacityOk, and_assoc]

/-- The framer's part reads only the framer's registers and BUSY. -/
theorem framerOk_congr {s t : State} (hfr : t.fr = s.fr) (hbusy : t.status.busy = s.status.busy) : framerOk t = framerOk s := by
  unfold framerOk frameLength
  rw [hfr, hbusy]

theorem framerOk_inPrefix_iff {s : State} (hp : s.fr.phase = .inPrefix) :
    framerOk s = true ↔ s.status.busy = true ∧ s.fr.buf.length < 4 ∧ s.fr.need = 0 := by
  simp [framerOk, hp, and_assoc]

theorem framerOk_inBody_iff {s : State} (hp : s.fr.phase = .inBody) :
    framerOk s = true ↔ s.status.busy = true ∧ 4 ≤ s.fr.buf.length ∧ 1 ≤ s.fr.need.toNat ∧
      s.fr.buf.length + s.fr.need.toNat = (frameLength s).toNat := by
  simp [framerOk, hp, and_assoc]

/-- A legal P_MAX_BUF admits every length a 24-bit field can state (R8). -/
theorem withinLimit_maxBuf {p : Params} (hwf : p.wf = true) {n : Nat} (hn : n ≤ 2 ^ 24 - 1) :
    withinLimit p.maxBuf n = true := by
  obtain ⟨maxBuf, maxAvps⟩ := p
  cases maxBuf with
  | none => rfl
  | some k =>
    simp only [Params.wf, maxU24, Bool.and_eq_true, decide_eq_true_eq] at hwf
    obtain ⟨hk, -⟩ := hwf
    exact decide_eq_true (by omega)

/-! ## Commands -/

/-- What a command stores in MSG is within capacity where MSG and A_LIST are (R184, R202, R203). -/
theorem storesOnSuccess_fits {i : Instr} {s : State} {m : Message} (hcap : capacityOk s = true) (h : storesOnSuccess i s m) :
    withinLimit s.params.maxAvps m.avps.length = true := by
  obtain ⟨-, -, -, halist, -, hmsg⟩ := (capacityOk_iff s).mp hcap
  cases i with
  | msglen | msgenc | msgseth => cases h; exact hmsg
  | msgdec =>
    obtain ⟨trail, hdec⟩ := h
    obtain ⟨-, -, hroom, -⟩ := (msgDecodeFindsExactBoundaries _ _ _ _).mp hdec
    exact hroom
  | msgdel =>
    obtain ⟨-, hle⟩ := h
    exact withinLimit_of_le hmsg hle
  | msgsetl => cases h; exact halist
  | msgapp =>
    obtain ⟨rfl, hfull⟩ := h
    simpa using withinLimit_succ hmsg hfull
  | msgclr => cases h; exact withinLimit_zero _
  | dec24 | enc24 | hdrdec | hdrenc | avpdec | avpenc | msgget | msggetl | msggeth | frame => cases h; exact hmsg

/-- R_BUF and R_LIST within their capacities (R8, R9). -/
def resultsFit (p : Params) (r : ResultRegs) : Prop :=
  withinLimit p.maxBuf r.buf.length = true ∧ withinLimit p.maxAvps r.list.length = true

theorem resultsFit_of_buf {p : Params} {r : ResultRegs} (hwf : p.wf = true) (hbuf : r.buf.length ≤ 2 ^ 24 - 1)
    (hlist : r.list = []) : resultsFit p r :=
  ⟨withinLimit_maxBuf hwf hbuf, by rw [hlist]; exact withinLimit_zero _⟩

theorem resultsFit_of_nil {p : Params} {r : ResultRegs} (hbuf : r.buf = []) (hlist : r.list = []) : resultsFit p r :=
  ⟨by rw [hbuf]; exact withinLimit_zero _, by rw [hlist]; exact withinLimit_zero _⟩

/-- A raise resets them, so a command's results fit where those of its success do. -/
theorem conclude_map_resultsFit {α : Type} {res : Except Code α} {f : α → ResultRegs × Message} {s t : State} {p : Params}
    (hf : ∀ x, res = .ok x → resultsFit p (f x).1) (h : conclude (res.map f) s = .next t) : resultsFit p t.r := by
  cases res with
  | ok x => rw [conclude_map_of_ok f s rfl] at h; cases h; exact hf x rfl
  | error e => rw [conclude_map_of_error f s rfl] at h; cases h; exact resultsFit_of_nil rfl rfl

theorem avpenc_fits {A : Avp} {limit : Option Nat} {p : Bytes × Nat} (h : (avpEncode A).bind (avpencFit limit) = .ok p) :
    withinLimit limit p.1.length = true := by
  cases henc : avpEncode A with
  | error e => rw [henc] at h; cases h
  | ok q =>
    rw [henc] at h
    change avpencFit limit q = _ at h
    unfold avpencFit at h
    split at h
    · cases h; assumption
    · cases h

/-- R_BUF and R_LIST after a command (R31): the encoders' outputs, MSGGETL's copy, and nothing else. -/
theorem exec_resultsFit {i : Instr} {s t : State} (hwf : s.params.wf = true) (hcap : capacityOk s = true)
    (hi : i ≠ .frame) (h : exec i s = .next t) : resultsFit s.params t.r := by
  cases i with
  | frame => exact absurd rfl hi
  | dec24 => exact conclude_map_resultsFit (fun _ _ => resultsFit_of_nil rfl rfl) h
  | hdrdec => exact conclude_map_resultsFit (fun _ _ => resultsFit_of_nil rfl rfl) h
  | avpdec => exact conclude_map_resultsFit (fun _ _ => resultsFit_of_nil rfl rfl) h
  | msgdec => exact conclude_map_resultsFit (fun _ _ => resultsFit_of_nil rfl rfl) h
  | avpenc => exact conclude_map_resultsFit (fun _ hp => ⟨avpenc_fits hp, withinLimit_zero _⟩) h
  | enc24 => cases h; exact resultsFit_of_buf hwf (by simp) rfl
  | hdrenc => cases h; exact resultsFit_of_buf hwf (by simp) rfl
  | msgenc =>
    by_cases hcode : t.status.code = .ok
    · obtain ⟨rfl, hle⟩ := exec_msgenc_ok_inv h hcode
      exact resultsFit_of_buf hwf ((msgWire_length s.msg).trans_le hle) rfl
    · rw [failedCommandCommitsNothing .msgenc s t hi h hcode]
      exact resultsFit_of_nil rfl rfl
  | msggetl =>
    obtain ⟨-, -, -, -, -, hmsg⟩ := (capacityOk_iff s).mp hcap
    cases h
    exact ⟨withinLimit_zero _, hmsg⟩
  | msgget =>
    simp only [exec, execMsgget] at h
    split at h <;> cases h <;> exact resultsFit_of_nil rfl rfl
  | msgdel =>
    simp only [exec, execMsgdel] at h
    split at h <;> cases h <;> exact resultsFit_of_nil rfl rfl
  | msgapp =>
    simp only [exec, execMsgapp] at h
    split at h <;> cases h <;> exact resultsFit_of_nil rfl rfl
  | msglen | msgsetl | msgseth | msggeth | msgclr => cases h; exact resultsFit_of_nil rfl rfl

/-- The capacities after an update that writes R_BUF, R_LIST and MSG alone. -/
theorem capacityOk_of_results {s t : State} (hcap : capacityOk s = true) (hparams : t.params = s.params) (ha : t.a = s.a)
    (hfr : t.fr = s.fr) (hr : resultsFit s.params t.r) (hmsg : withinLimit s.params.maxAvps t.msg.avps.length = true) :
    capacityOk t = true := by
  obtain ⟨habuf, -, hfrbuf, halist, -, -⟩ := (capacityOk_iff s).mp hcap
  obtain ⟨hrbuf, hrlist⟩ := hr
  rw [capacityOk_iff, hparams, ha, hfr]
  exact ⟨habuf, hrbuf, hfrbuf, halist, hrlist, hmsg⟩

theorem machineInv_exec {i : Instr} {s t : State} (hinv : machineInv s = true) (h : exec i s = .next t) :
    machineInv t = true := by
  obtain ⟨hwf, hok, hcap⟩ := (machineInv_iff s).mp hinv
  by_cases hi : i = .frame
  · subst hi
    cases h
    obtain ⟨habuf, hrbuf, -, hrest⟩ := (capacityOk_iff s).mp hcap
    exact (machineInv_iff _).mpr ⟨hwf, rfl, (capacityOk_iff _).mpr ⟨habuf, hrbuf, withinLimit_zero _, hrest⟩⟩
  · obtain ⟨u, hu, ha, -, hbusy, hfr, -, hparams, -, -⟩ := exec_completes i hi s
    obtain rfl : u = t := Host.Outcome.next.inj (hu.symm.trans h)
    obtain ⟨-, -, -, -, -, hmsg⟩ := (capacityOk_iff s).mp hcap
    have hstored := exec_msg_property (fun m => withinLimit s.params.maxAvps m.avps.length = true) hi h hmsg
      fun _ => storesOnSuccess_fits hcap
    exact (machineInv_iff u).mpr ⟨hparams ▸ hwf, (framerOk_congr hfr hbusy).trans hok,
      capacityOk_of_results hcap hparams ha hfr (exec_resultsFit hwf hcap hi h) hstored⟩

/-! ## The host -/

theorem machineInv_raise {s : State} (e : Code) (hinv : machineInv s = true) : machineInv (raise e s) = true := by
  obtain ⟨hwf, hok, hcap⟩ := (machineInv_iff s).mp hinv
  obtain ⟨-, -, -, -, -, hmsg⟩ := (capacityOk_iff s).mp hcap
  exact (machineInv_iff _).mpr ⟨hwf, hok, capacityOk_of_results hcap rfl rfl rfl (resultsFit_of_nil rfl rfl) hmsg⟩

theorem machineInv_writeOperand {s : State} {a : OperandRegs} (hinv : machineInv s = true)
    (hbuf : a.buf = s.a.buf ∨ withinLimit s.params.maxBuf a.buf.length = true)
    (hlist : a.list = s.a.list ∨ withinLimit s.params.maxAvps a.list.length = true) :
    machineInv (writeOperand a s) = true := by
  obtain ⟨hwf, hok, hcap⟩ := (machineInv_iff s).mp hinv
  obtain ⟨habuf, hrbuf, hfrbuf, halist, hrest⟩ := (capacityOk_iff s).mp hcap
  refine (machineInv_iff _).mpr ⟨hwf, hok, (capacityOk_iff _).mpr ⟨?_, hrbuf, hfrbuf, ?_, hrest⟩⟩
  · rcases hbuf with hsame | hfits
    · rw [writeOperand_a, hsame]; exact habuf
    · exact hfits
  · rcases hlist with hsame | hfits
    · rw [writeOperand_a, hsame]; exact halist
    · exact hfits

theorem machineInv_hostTurn {s t : State} (hinv : machineInv s = true) (h : hostTurn s = .next t) : machineInv t = true := by
  rcases hostTurn_cases h with rfl | ⟨act, rest, -, -, hact⟩
  · exact hinv
  have hinv' : machineInv { s with program := rest } = true := hinv
  rcases hostAct_cases hact with rfl | ⟨a, rfl, hbuf, hlist⟩ | ⟨v, -, hissue⟩
  · exact hinv
  · exact machineInv_writeOperand hinv' hbuf hlist
  · have hinv'' : machineInv { s with program := rest, cmd := v } = true := hinv
    rcases issueCommand_cases v { s with program := rest } with ⟨i, -, hx⟩ | ⟨-, hx⟩ <;> rw [hx] at hissue
    · exact machineInv_exec hinv'' hissue
    · cases hissue
      exact machineInv_raise _ hinv''

/-! ## The framer -/

/-- A frame has room for one more byte below 2^24 (R8, R45). -/
theorem frame_room {s : State} (hok : framerOk s = true) (hp : s.fr.phase ≠ .idle) : s.fr.buf.length + 1 ≤ 2 ^ 24 - 1 := by
  cases hphase : s.fr.phase with
  | idle => exact absurd hphase hp
  | inPrefix =>
    obtain ⟨-, hlen, -⟩ := (framerOk_inPrefix_iff hphase).mp hok
    omega
  | inBody =>
    obtain ⟨-, h4, hneed, hsum⟩ := (framerOk_inBody_iff hphase).mp hok
    have hlt : (frameLength s).toNat < 2 ^ 24 := lengthField_lt h4
    omega

theorem capacityOk_takeByte {s : State} (hwf : s.params.wf = true) (hcap : capacityOk s = true)
    (hroom : s.fr.buf.length + 1 ≤ 2 ^ 24 - 1) : capacityOk (takeByte s) = true := by
  obtain ⟨habuf, hrbuf, -, hrest⟩ := (capacityOk_iff s).mp hcap
  refine (capacityOk_iff _).mpr ⟨habuf, hrbuf, withinLimit_maxBuf hwf ?_, hrest⟩
  rw [takeByte_fr, List.length_append, List.length_singleton]
  exact hroom

/-- The end of a frame: R_BUF gets FR_BUF, which is within the same capacity (R237). -/
theorem machineInv_finishFrame {s : State} (e : Code) (ml : U32) (trail : BitVec 3) (hwf : s.params.wf = true)
    (hcap : capacityOk s = true) : machineInv (finishFrame e ml trail s) = true := by
  obtain ⟨habuf, -, hfrbuf, halist, -, hmsg⟩ := (capacityOk_iff s).mp hcap
  exact (machineInv_iff _).mpr ⟨hwf, rfl,
    (capacityOk_iff _).mpr ⟨habuf, hfrbuf, withinLimit_zero _, halist, withinLimit_zero _, hmsg⟩⟩

theorem machineInv_completeFrame {s : State} (hwf : s.params.wf = true) (hcap : capacityOk s = true) :
    machineInv (completeFrame s) = true := by
  rcases completeFrame_cases s with ⟨M, trail, hdec, h⟩ | ⟨e, -, h⟩ <;> rw [h]
  · obtain ⟨-, -, hroom, -⟩ := (msgDecodeFindsExactBoundaries _ _ _ _).mp hdec
    obtain ⟨habuf, hrbuf, hfrbuf, halist, hrlist, -⟩ := (capacityOk_iff s).mp hcap
    exact machineInv_finishFrame _ _ _ hwf ((capacityOk_iff _).mpr ⟨habuf, hrbuf, hfrbuf, halist, hrlist, hroom⟩)
  · exact machineInv_finishFrame _ _ _ hwf hcap

/-- The fourth byte: the frame ends, or the body begins with ML − 4 bytes to come (R233). -/
theorem machineInv_evaluatePrefix {s : State} (hwf : s.params.wf = true) (hcap : capacityOk s = true)
    (hbusy : s.status.busy = true) (h4 : s.fr.buf.length = 4) : machineInv (evaluatePrefix s) = true := by
  by_cases hml : (frameLength s).toNat ≤ 4
  · rw [evaluatePrefix_end s hml]
    exact machineInv_finishFrame _ _ _ hwf hcap
  · have hlt : (frameLength s).toNat < 2 ^ 24 := lengthField_lt h4.ge
    have hneed : (BitVec.ofNat 24 ((frameLength s).toNat - 4)).toNat = (frameLength s).toNat - 4 := by
      rw [BitVec.toNat_ofNat, Nat.mod_eq_of_lt (by omega)]
    rw [evaluatePrefix_body s (by omega)]
    refine (machineInv_iff _).mpr ⟨hwf, (framerOk_inBody_iff rfl).mpr ⟨hbusy, h4.ge, ?_, ?_⟩, hcap⟩
    · simp only [hneed]; omega
    · simp only [h4, hneed]
      exact Nat.add_sub_cancel' (by omega)

/-- A body byte that is not the last one: one byte more held, one fewer needed (R234). -/
theorem framerOk_countBodyByte {s : State} (hp : s.fr.phase = .inBody) (hok : framerOk s = true) (hmore : s.fr.need - 1 ≠ 0) :
    framerOk (countBodyByte (takeByte s)) = true := by
  obtain ⟨hbusy, h4, hneed, hsum⟩ := (framerOk_inBody_iff hp).mp hok
  have hlen : (s.fr.buf ++ [inData s]).length = s.fr.buf.length + 1 := by simp
  have hml : frameLength (countBodyByte (takeByte s)) = frameLength s := congrArg decode24 (lengthField_append _ h4)
  have hleft : (s.fr.need - 1).toNat = s.fr.need.toNat - 1 := by bv_omega
  have hpos : (s.fr.need - 1).toNat ≠ 0 := fun hzero => hmore (BitVec.eq_of_toNat_eq hzero)
  refine (framerOk_inBody_iff (s := countBodyByte (takeByte s)) hp).mpr ⟨hbusy, ?_, ?_, ?_⟩
  · simp only [countBodyByte_fr, takeByte_fr, hlen]; omega
  · simp only [countBodyByte_fr, takeByte_fr]; omega
  · rw [hml]
    simp only [countBodyByte_fr, takeByte_fr, hlen]; omega

theorem machineInv_framerStep {s : State} (hinv : machineInv s = true) : machineInv (framerStep s) = true := by
  obtain ⟨hwf, hok, hcap⟩ := (machineInv_iff s).mp hinv
  have htaken : s.fr.phase ≠ .idle → capacityOk (takeByte s) = true :=
    fun hp => capacityOk_takeByte hwf hcap (frame_room hok hp)
  rcases framerStep_cases s with ⟨h, -⟩ | ⟨hp, -, hlen, h⟩ | ⟨hp, -, hlen, h⟩ | ⟨hp, -, hmore, h⟩ | ⟨hp, -, -, h⟩ |
    ⟨-, -, h⟩ | ⟨-, -, h⟩ <;> rw [h]
  · exact hinv
  · obtain ⟨hbusy, h4, hneed⟩ := (framerOk_inPrefix_iff hp).mp hok
    have hstored : framerOk (takeByte s) = true := by
      refine (framerOk_inPrefix_iff (s := takeByte s) hp).mpr ⟨hbusy, ?_, hneed⟩
      rw [takeByte_fr, List.length_append, List.length_singleton]
      omega
    exact (machineInv_iff _).mpr ⟨hwf, hstored, htaken (by simp [hp])⟩
  · obtain ⟨hbusy, -, -⟩ := (framerOk_inPrefix_iff hp).mp hok
    exact machineInv_evaluatePrefix (s := takeByte s) hwf (htaken (by simp [hp])) hbusy
      (by rw [takeByte_fr, List.length_append, List.length_singleton]; exact hlen)
  · exact (machineInv_iff _).mpr ⟨hwf, framerOk_countBodyByte hp hok hmore, htaken (by simp [hp])⟩
  · exact machineInv_completeFrame (s := countBodyByte (takeByte s)) hwf (htaken (by simp [hp]))
  · exact machineInv_finishFrame _ _ _ hwf hcap
  · exact machineInv_finishFrame _ _ _ hwf hcap

/-! ## The step -/

theorem machineInv_offerBytes {s : State} (bs : Bytes) (hinv : machineInv s = true) : machineInv (offerBytes bs s) = true := by
  unfold offerBytes
  split <;> exact hinv

/-- A reset keeps the parameters and empties everything the invariant speaks of (R290). -/
theorem machineInv_resetBlock {s : State} (hinv : machineInv s = true) : machineInv (resetBlock s) = true := by
  obtain ⟨hwf, -, -⟩ := (machineInv_iff s).mp hinv
  refine (machineInv_iff _).mpr ⟨hwf, rfl, (capacityOk_iff _).mpr ⟨?_, ?_, ?_, ?_, ?_, ?_⟩⟩ <;> exact withinLimit_zero _

/-- Settles O53: the host's turn, the framer's step and each event keep the invariant, which does not speak of the schedule. -/
theorem stepKeepsInvariant : Obligations.StepKeepsInvariant := by
  intro s t hinv h
  obtain ⟨es, ⟨-, hhost⟩ | rfl | ⟨bs, rfl⟩ | rfl | ⟨-, rfl⟩⟩ := step_turns h <;>
    have hinv' : machineInv { s with events := es } = true := hinv
  · exact machineInv_hostTurn hinv' hhost
  · exact machineInv_framerStep hinv'
  · exact machineInv_offerBytes bs hinv'
  · exact hinv'
  · exact machineInv_resetBlock hinv'

end Sys2Proof.Machine
end

section
/-! A message from MSGENC through the stream to FRAME (44_stream_framer.md section 3): O43. -/

namespace Sys2Proof.Machine

/-- With no event pending, an idle framer leaves the turn to the host, whose FRAME starts it (R231). -/
theorem step_of_frame_command {s : State} (hes : s.events = []) (hp : s.program = [.command 0x40])
    (hbusy : s.status.busy = false) (hfr : s.fr = FramerRegs.idle) :
    step s = exec .frame { s with cmd := 0x40, program := [] } := by
  obtain ⟨-, hdefault, -⟩ := stepRunsIssuedCommand
  exact hdefault s 0x40 .frame [] rfl hp hbusy hes (framerEnabled_idle (by rw [hfr]; rfl))

/-- Settles O43: one step of FRAME, then a whole frame whose decode is `msgDecode_msgWire`. -/
theorem frameRestoresEncodedMessage : Obligations.FrameRestoresEncodedMessage := by
  intro s0 s rest hne hwf htotal hcc hroom hes hp hbusy hfr
  have hle : totalLength s0.msg ≤ 2 ^ 24 - 1 := by omega
  have henc := exec_msgenc_of_ok (msgEncode_of_fits (fun A hA => data_ne_nil_of_wf (hwf A hA)) hle)
  refine ⟨msgencDone s0, henc, fun hin => ?_⟩
  have hlen : (msgencDone s0).r.buf.length = totalLength s0.msg := msgWire_length s0.msg
  have hu32 : BitVec.ofNat 32 (msgencDone s0).r.buf.length = (msgencDone s0).r.u32 := congrArg (BitVec.ofNat 32) hlen
  have hml : (decode24 (slice (msgencDone s0).r.buf 1 4)).toNat = (msgencDone s0).r.buf.length := by
    obtain ⟨-, -, -, -, hfield, -⟩ := msgencLengthIsCorrect s0 _ henc rfl
    exact hfield
  have h5 : 5 ≤ (msgencDone s0).r.buf.length := by
    rw [hlen, totalLength]; omega
  have hdec : msgDecode s.params.maxAvps (msgencDone s0).r.buf = .ok ((msgencDone s0).msg, 0) :=
    msgDecode_msgWire hne hwf htotal hcc hroom
  obtain ⟨hwhole, -⟩ := frameReceivesWholeMessage
  have hrun := hwhole
    { s with cmd := 0x40, program := [], fr := { phase := .inPrefix, buf := [], need := 0 }, status := { s.status with busy := true } }
    (msgencDone s0).r.buf rest [] ⟨0, Nat.zero_le _, hes, .inr rfl⟩ rfl rfl hin h5 hml
  simp only [hdec] at hrun
  refine ⟨_, (runSteps_succ _ (step_of_frame_command hes hp hbusy hfr)).trans hrun, rfl, rfl, rfl, rfl, ?_, rfl⟩
  simp only [hu32]
  rfl

end Sys2Proof.Machine
end
